-- ==== Sys2Proof/Word.lean ====
section
/-! DEFINITION. The word types: the byte, the only datum of the data path (00_scope.md R7), and the 64-bit
command word of format `H` (30_encoding.md R44). -/

namespace Sys2Proof

/-- An unsigned 8-bit value (00_scope.md R7). -/
abbrev Byte := BitVec 8

/-- A word the host writes to `CMD` (30_encoding.md R44, R45). -/
abbrev CommandWord := BitVec 64

end Sys2Proof
end

