-- ==== Sys2Proof/Config.lean ====
section
/-! DEFINITION. What an implementation fixes (00_scope.md R6), and the values the spec leaves open.
The Substitution Table, a constant of the configuration too (10_state.md R23), stands in Machine/Sbox.lean. -/

namespace Sys2Proof.Config

/-- `LEN_BITS`, the width of the length operand of `DIGEST` (00_scope.md R6). -/
def lenBits : Nat := 56

/-- `W_CAP` of the machine that `State.reset` describes: unbounded, which R6 allows. DESIGN CHOICE: the spec
leaves the parameter open. Every state carries its own capacity (`State.wCap`), so a statement over all states is a
statement over all capacities; only a statement about `State.reset` rests on this value (assumption 3). -/
def wCapAtReset : Option Nat := none

/-- The byte the `d`-th undefined host read returns: a free value, nothing is known of it. It stands for a read of
`OUT[j]` while `OUT` is not valid (10_state.md R21; 93_implementation_defined.md U3). DESIGN CHOICE (assumption 7):
it is one sequence, the same for every engine and every run, each of which counts its own reads from it. -/
opaque freeByte : Nat → Byte

end Sys2Proof.Config
end

