-- ==== Sys2Proof/Syntax.lean ====
section
/-! DEFINITION. The instructions: one constructor per row of spec/opcode_table.json. -/

namespace Sys2Proof

/-- The host command `DIGEST` (format `H`, 30_encoding.md R45) and the ten sequencer operations (format `U`, R46),
whose operands are the counters of the state and no part of the instruction. -/
inductive Instr where
  /-- `DIGEST n` (44_digest_command.md R81): `n` is the `len` field. -/
  | digest (n : Nat)
  /-- `COPYB` (41_padder.md R63). -/
  | copyb
  /-- `PADB` (41_padder.md R64). -/
  | padb
  /-- `CKINIT` (42_checksum.md R67). -/
  | ckinit
  /-- `CKSTEP` (42_checksum.md R68). -/
  | ckstep
  /-- `CKAPP` (42_checksum.md R69). -/
  | ckapp
  /-- `XINIT` (43_compressor.md R73). -/
  | xinit
  /-- `LDBLK` (43_compressor.md R74). -/
  | ldblk
  /-- `MIX` (43_compressor.md R75). -/
  | mix
  /-- `RADJ` (43_compressor.md R76). -/
  | radj
  /-- `EXTRACT` (43_compressor.md R77). -/
  | extract
  deriving DecidableEq, Repr

/-- The mnemonics of 30_encoding.md R52, upper case. -/
def Instr.mnemonic : Instr → String
  | .digest _ => "DIGEST"
  | .copyb => "COPYB"
  | .padb => "PADB"
  | .ckinit => "CKINIT"
  | .ckstep => "CKSTEP"
  | .ckapp => "CKAPP"
  | .xinit => "XINIT"
  | .ldblk => "LDBLK"
  | .mix => "MIX"
  | .radj => "RADJ"
  | .extract => "EXTRACT"

end Sys2Proof
end

