-- ==== Sys2Proof/WellFormed.lean ====
section
/-! DEFINITION. Which instructions have an encoding. -/

namespace Sys2Proof

/-- The length of a `DIGEST` fits the 56-bit `len` field: the largest encodable length is `2^56 - 1`
(30_encoding.md R47). The sequencer operations have no operand to check. -/
def Instr.wf : Instr → Bool
  | .digest n => decide (n < 2 ^ Config.lenBits)
  | .copyb => true
  | .padb => true
  | .ckinit => true
  | .ckstep => true
  | .ckapp => true
  | .xinit => true
  | .ldblk => true
  | .mix => true
  | .radj => true
  | .extract => true

end Sys2Proof
end

