-- ==== Sys2Proof/Decode.lean ====
section
/-! DEFINITION. Decoding and encoding: the 64-bit command word of format `H`, decoded from its bits, and the 4-bit
selector (`PHASE` code) of format `U` (30_encoding.md, sections 1 to 3). -/

namespace Sys2Proof

/-- What an instruction is decoded from (30_encoding.md R44): a command word, or the selector that `PHASE` holds. -/
inductive Code where
  | command (w : CommandWord)
  | selector (c : BitVec 4)
  deriving DecidableEq, Repr

/-- Why a code names no instruction. -/
inductive DecodeError where
  /-- An opcode other than 0x01 (30_encoding.md R48, R50). -/
  | illegalOpcode (opcode : Byte)
  /-- `PHASE` codes 0, 11 and 12 select no operation (R46). -/
  | noOperation (c : BitVec 4)
  /-- `PHASE` codes 13 to 15 are reserved (R46, R50). -/
  | reservedSelector (c : BitVec 4)
  /-- One byte that is no 4-bit selector. -/
  | notASelector (b : Byte)
  /-- Neither one byte nor eight: a command is always one 64-bit word (R51). -/
  | wrongLength (n : Nat)
  deriving DecidableEq, Repr

/-- Bits 7:0 of a command word (30_encoding.md R45). -/
def commandOpcode (w : CommandWord) : Byte := w.extractLsb' 0 8

/-- Bits 63:8 of a command word as an unsigned number (30_encoding.md R45, R47). -/
def commandLen (w : CommandWord) : Nat := (w.extractLsb' 8 56).toNat

/-- `decode` of a command word (30_encoding.md R49). -/
def decodeCommand (w : CommandWord) : Except DecodeError Instr :=
  if commandOpcode w = 0x01#8 then .ok (.digest (commandLen w))
  else .error (.illegalOpcode (commandOpcode w))

/-- The operation a `PHASE` code selects (30_encoding.md R46). -/
def decodeSelector (c : BitVec 4) : Except DecodeError Instr :=
  match c.toNat with
  | 1 => .ok .copyb
  | 2 => .ok .padb
  | 3 => .ok .ckinit
  | 4 => .ok .ckstep
  | 5 => .ok .ckapp
  | 6 => .ok .xinit
  | 7 => .ok .ldblk
  | 8 => .ok .mix
  | 9 => .ok .radj
  | 10 => .ok .extract
  | 0 => .error (.noOperation c)
  | 11 => .error (.noOperation c)
  | 12 => .error (.noOperation c)
  | _ => .error (.reservedSelector c)

/-- Decoding of either format. -/
def decode : Code → Except DecodeError Instr
  | .command w => decodeCommand w
  | .selector c => decodeSelector c

/-- The number whose bytes are `bs`, least significant first (20_memory.md R33). -/
def numberOfBytes : List Byte → Nat
  | [] => 0
  | b :: bs => b.toNat + 256 * numberOfBytes bs

/-- A command word's eight bytes, least significant first (20_memory.md R33). -/
def bytesOfCommand (w : CommandWord) : List Byte :=
  (List.range 8).map fun j => w.extractLsb' (8 * j) 8

/-- Decoding of stored bytes, total: eight bytes are a command word, one byte is a selector in its low four bits
(assumption 12), any other length is refused by name. -/
def decodeBytes (bs : List Byte) : Except DecodeError Instr :=
  match bs with
  | [b] => if b.toNat < 16 then decodeSelector (b.extractLsb' 0 4) else .error (.notASelector b)
  | bs => if bs.length = 8 then decodeCommand (BitVec.ofNat 64 (numberOfBytes bs))
          else .error (.wrongLength bs.length)

/-- `DIGEST n` is the word `n * 256 + 1` (30_encoding.md R52, from the fields of R45). A length of 2^56 or more has no
word (R47; 93_implementation_defined.md U9); DESIGN CHOICE (assumption 18): the function, total on naturals, drops the
bits of such a length from bit 56 on, and answers the word of `n mod 2^56`. -/
def encodeDigest (n : Nat) : CommandWord := BitVec.ofNat 64 (n * 256 + 1)

/-- The code of an instruction (30_encoding.md R45, R46). -/
def encode : Instr → Code
  | .digest n => .command (encodeDigest n)
  | .copyb => .selector 1#4
  | .padb => .selector 2#4
  | .ckinit => .selector 3#4
  | .ckstep => .selector 4#4
  | .ckapp => .selector 5#4
  | .xinit => .selector 6#4
  | .ldblk => .selector 7#4
  | .mix => .selector 8#4
  | .radj => .selector 9#4
  | .extract => .selector 10#4

/-- A code as stored bytes. -/
def Code.bytes : Code → List Byte
  | .command w => bytesOfCommand w
  | .selector c => [c.setWidth 8]

/-- A code as a number, its bits numbered as spec/opcode_table.json numbers them. -/
def Code.number : Code → Nat
  | .command w => w.toNat
  | .selector c => c.toNat

/-- The stored bytes of an instruction. -/
def encodeBytes (i : Instr) : List Byte := (encode i).bytes

/-- One row of spec/opcode_table.json: the mask and what the masked bits are. -/
structure TableRow where
  mask : Nat
  bits : Nat
  deriving DecidableEq, Repr

/-- The row of spec/opcode_table.json an instruction belongs to. -/
def tableRow : Instr → TableRow
  | .digest _ => ⟨0xFF, 0x01⟩
  | .copyb => ⟨0xF, 0x1⟩
  | .padb => ⟨0xF, 0x2⟩
  | .ckinit => ⟨0xF, 0x3⟩
  | .ckstep => ⟨0xF, 0x4⟩
  | .ckapp => ⟨0xF, 0x5⟩
  | .xinit => ⟨0xF, 0x6⟩
  | .ldblk => ⟨0xF, 0x7⟩
  | .mix => ⟨0xF, 0x8⟩
  | .radj => ⟨0xF, 0x9⟩
  | .extract => ⟨0xF, 0xA⟩

/-- The bytes of a table word: a row of the table of at most eight bits is a selector of format `U` in one byte, a
wider one a command word of format `H` in eight (assumption 12). -/
def tableBytes (nbits w : Nat) : List Byte :=
  if nbits ≤ 8 then [BitVec.ofNat 8 w] else bytesOfCommand (BitVec.ofNat 64 w)

/-- The decoder on a word numbered as spec/opcode_table.json numbers it. -/
def decodeTableWord (nbits w : Nat) : Option Instr :=
  match decodeBytes (tableBytes nbits w) with
  | .ok i => some i
  | .error _ => none

end Sys2Proof
end

