-- ==== Sys2Proof/Machine/State.lean ====
section
/-! DEFINITION. The state of one engine instance and of its host (10_state.md), as plain data, and the state after
reset (10_state.md R27). -/

namespace Sys2Proof.Machine

/-- A byte space as a list of (index, byte) pairs; the one canonical form is `Memory.wf` (Machine/Memory.lean). -/
abbrev Memory := List Host.Cell

/-- A file of `n` registers of 8 bits. -/
abbrev RegFile (n : Nat) := Vector Byte n

/-- `PHASE` (10_state.md R17). The reserved codes 13 to 15 are not representable, as R17 allows. -/
inductive Phase where
  | idle | copy | pad | cki | cks | cka | xi | ldb | mix | radj | ext | done | fault
  deriving DecidableEq, Repr

/-- The `ERR` field of `STATUS` (10_state.md R19; 60_exceptions.md R89). Code 3, never produced, is not
representable. -/
inductive Err where
  | none | resourceExhausted | illegalCommand
  deriving DecidableEq, Repr

/-- What the host can do (70_reset_and_hazards.md R116). Offsets count from `BASE` (20_memory.md R36). -/
inductive HostMove where
  /-- The host does nothing and the engine takes its step. -/
  | wait
  /-- `RESET` (R104), perhaps together with a `CMD` write, which is then lost (60_exceptions.md R94). -/
  | reset (lostWrite : Option CommandWord)
  /-- One 64-bit write to `CMD` (10_state.md R20). -/
  | writeCmd (w : CommandWord)
  /-- A write of one byte at an offset. -/
  | writeByte (off : Nat) (b : Byte)
  /-- One read transaction of `n` bytes from offset `off` on. -/
  | read (off n : Nat)
  /-- The host puts `bytes` in place as `IN` (R106). -/
  | present (bytes : List Byte)
  deriving DecidableEq, Repr

/-- Why the model stops. No rule of the spec makes an engine operation fail (60_exceptions.md R88): each of these is
the model's own stop in a state whose counter points outside its space, which no run reaches (20_memory.md R31).
All are safe (assumption 9). -/
inductive Fault where
  /-- Raised by `COPYB` for an index `>= NIN` (20_memory.md R28, R29). Safe. -/
  | outsideIN (a : Nat)
  /-- Raised by `COPYB`, `PADB`, `CKSTEP`, `CKAPP`, `LDBLK` for an index of `W` at or beyond `W_CAP`
  (10_state.md R22). Safe. -/
  | outsideW (a : Nat)
  /-- Raised by `MIX` for a register number of 48 or more (10_state.md R11). Safe. -/
  | outsideX (k : Nat)
  /-- Raised by `CKSTEP` for a register number of 16 or more (10_state.md R13). Safe. -/
  | outsideC (k : Nat)
  deriving DecidableEq, Repr

/-- What the model refuses. -/
inductive Refusal where
  /-- An instruction whose meaning is not written; raised by an arm of `exec`. Safe. -/
  | notModelled (mnemonic : String)
  /-- Raised by the host move `present` while the engine is `BUSY` (93_implementation_defined.md U4: refuse). Safe. -/
  | inputHeldWhileBusy
  /-- Raised by the host move `writeByte` inside `CMD`: a `CMD` write that is not one 64-bit transaction
  (93_implementation_defined.md U5: refuse). Safe. -/
  | splitCommandWrite (off : Nat)
  /-- Raised by the host moves `read` and `writeByte` from offset 0x20 on, which are not the engine's
  (93_implementation_defined.md U13: refuse). Safe. -/
  | notAnEngineOffset (off : Nat)
  deriving DecidableEq, Repr

/-- One engine instance with its host. The field names are the spec's in lower case; counters are naturals, as
10_state.md R15 allows (assumption 11). -/
structure State where
  /-- `PHASE` (R16, R17). -/
  phase : Phase
  /-- `STATUS.ERR` (R19). -/
  err : Err
  /-- `X[0..47]`, the State Buffer (R11). -/
  x : RegFile 48
  /-- `T` (R14). -/
  t : Byte
  /-- `C[0..15]`, the checksum accumulator (R13). -/
  c : RegFile 16
  /-- `L`, the running byte `last` (R13). -/
  l : Byte
  /-- `NIN`, the latched input length (R15). -/
  nin : Nat
  /-- `P`, the pad count (R15). -/
  p : Nat
  /-- `LEN`, the length of `W` (R15). -/
  len : Nat
  /-- `Q`, the byte counter of `COPY` and `PAD` (R15). -/
  q : Nat
  /-- `I`, the block index (R15). -/
  i : Nat
  /-- `R`, the round index (R15). -/
  r : Nat
  /-- `K`, the position (R15). -/
  k : Nat
  /-- `W`, the working buffer (R22). -/
  w : Memory
  /-- `OUT[0..15]` (R21); valid exactly in `DONE`. -/
  out : RegFile 16
  /-- `IN`, the host's input (20_memory.md R28, R29). -/
  inp : Memory
  /-- `W_CAP`, `none` for unbounded (00_scope.md R6); no step writes it. -/
  wCap : Option Nat
  /-- The model's own: the host's moves still to come, the next one first (assumption 5). -/
  host : List HostMove
  /-- The model's own: what the host's last read transaction returned (assumption 16). -/
  rdata : List Byte
  /-- The model's own: how many free bytes have been drawn (assumption 7). -/
  draws : Nat
  deriving DecidableEq, Repr

/-- The machine right after reset: `IDLE`, `ERR` 0 (10_state.md R27). Every other value is unspecified there; the
zeros are the model's DESIGN CHOICE (assumptions 1, 2, 3). -/
def State.reset : State where
  phase := .idle
  err := .none
  x := Vector.replicate 48 0#8
  t := 0#8
  c := Vector.replicate 16 0#8
  l := 0#8
  nin := 0
  p := 0
  len := 0
  q := 0
  i := 0
  r := 0
  k := 0
  w := []
  out := Vector.replicate 16 0#8
  inp := []
  wCap := Config.wCapAtReset
  host := []
  rdata := []
  draws := 0

end Sys2Proof.Machine
end

