-- ==== Sys2Proof/Machine/Flags.lean ====
section
/-! DEFINITION. The engine has no flags (10_state.md R18). What comes nearest is `STATUS`, whose fields record the
progress of a command (R19); it is computed here from `PHASE` and `ERR`. -/

namespace Sys2Proof.Machine

/-- `STATE` is `BUSY`: `PHASE` in 1..10 (10_state.md R17, R19). -/
def Phase.busy : Phase → Bool
  | .idle => false
  | .copy => true
  | .pad => true
  | .cki => true
  | .cks => true
  | .cka => true
  | .xi => true
  | .ldb => true
  | .mix => true
  | .radj => true
  | .ext => true
  | .done => false
  | .fault => false

/-- The `STATE` field, a function of `PHASE` (10_state.md R19). -/
def Phase.stateField (ph : Phase) : BitVec 2 :=
  match ph with
  | .idle => 0#2
  | .done => 2#2
  | .fault => 3#2
  | .copy => 1#2
  | .pad => 1#2
  | .cki => 1#2
  | .cks => 1#2
  | .cka => 1#2
  | .xi => 1#2
  | .ldb => 1#2
  | .mix => 1#2
  | .radj => 1#2
  | .ext => 1#2

/-- The `ERR` codes (10_state.md R19; 60_exceptions.md R89). -/
def Err.code : Err → BitVec 2
  | .none => 0#2
  | .resourceExhausted => 1#2
  | .illegalCommand => 2#2

/-- The `STATUS` register: bits 7:4 zero, `ERR` in 3:2, `STATE` in 1:0 (10_state.md R19). -/
def State.status (s : State) : Byte := (0#4 ++ s.err.code) ++ s.phase.stateField

/-- Whether the engine is `BUSY`. -/
def State.busy (s : State) : Bool := s.phase.busy

/-- `OUT` is valid exactly while `PHASE = DONE` (10_state.md R21). -/
def State.outValid (s : State) : Bool := decide (s.phase = .done)

/-- The level output a platform may derive for completion: `STATE` = 2 (60_exceptions.md R93). -/
def State.doneLine (s : State) : Bool := decide (s.phase.stateField = 2#2)

/-- The level output a platform may derive for failure: `STATE` = 3 (60_exceptions.md R93). -/
def State.faultLine (s : State) : Bool := decide (s.phase.stateField = 3#2)

end Sys2Proof.Machine
end

