-- ==== Sys2Proof/Machine/Memory.lean ====
section
/-! DEFINITION. Byte memory: reads and writes of one byte, the canonical form, and runs of bytes. Every engine access
is one byte wide (20_memory.md R34), so nothing here has a byte order. -/

namespace Sys2Proof.Machine

/-- What an index nothing has written reads as: DESIGN CHOICE (assumption 1). -/
def Memory.unlisted : Byte := 0x00#8

/-- The byte at index `a`. -/
def Memory.read : Memory → Nat → Byte
  | [], _ => Memory.unlisted
  | (a', b) :: m, a => if a' = a then b else Memory.read m a

/-- The memory with byte `b` at index `a`, in canonical form if `m` is. -/
def Memory.write : Memory → Nat → Byte → Memory
  | [], a, b => if b = Memory.unlisted then [] else [(a, b)]
  | (a', b') :: m, a, b =>
    if a' < a then (a', b') :: Memory.write m a b
    else if a' = a then (if b = Memory.unlisted then m else (a, b) :: m)
    else if b = Memory.unlisted then (a', b') :: m
    else (a, b) :: (a', b') :: m

/-- The canonical form from index `lo` on: indices strictly rising, no entry equal to the unlisted byte. -/
def Memory.wfFrom : Nat → Memory → Bool
  | _, [] => true
  | lo, (a, b) :: m => decide (lo ≤ a) && decide (b ≠ Memory.unlisted) && Memory.wfFrom (a + 1) m

/-- The canonical form. -/
def Memory.wf (m : Memory) : Bool := Memory.wfFrom 0 m

/-- Writes the bytes `bs` at ascending indices from `a` on. -/
def Memory.writeBytes : Memory → Nat → List Byte → Memory
  | m, _, [] => m
  | m, a, b :: bs => Memory.writeBytes (m.write a b) (a + 1) bs

/-- The `n` bytes from index `a` on, in ascending order. -/
def Memory.readBytes (m : Memory) (a n : Nat) : List Byte :=
  (List.range n).map fun j => m.read (a + j)

/-- A memory that holds `bs` from index 0 on and nothing else. -/
def Memory.ofBytes (bs : List Byte) : Memory := Memory.writeBytes [] 0 bs

end Sys2Proof.Machine
end

