-- ==== Sys2Proof/Machine/Operands.lean ====
section
/-! DEFINITION. The implicit operands of the operations: the `PHASE` code that selects one (30_encoding.md R46), and
the counters' arithmetic: the pad count, the indices of `W`, and where a counter goes next. -/

namespace Sys2Proof.Machine

/-- The code of a phase, which is also the selector of its operation (10_state.md R17). -/
def Phase.code : Phase → BitVec 4
  | .idle => 0#4
  | .copy => 1#4
  | .pad => 2#4
  | .cki => 3#4
  | .cks => 4#4
  | .cka => 5#4
  | .xi => 6#4
  | .ldb => 7#4
  | .mix => 8#4
  | .radj => 9#4
  | .ext => 10#4
  | .done => 11#4
  | .fault => 12#4

/-- The phase with a given code; codes 13 to 15 are reserved (10_state.md R17). -/
def Phase.ofCode (n : Nat) : Option Phase :=
  [Phase.idle, .copy, .pad, .cki, .cks, .cka, .xi, .ldb, .mix, .radj, .ext, .done, .fault][n]?

/-- The pad count `16 - (n mod 16)`, 1 to 16 (41_padder.md R61). -/
def padCount (n : Nat) : Nat := 16 - n % 16

/-- The pad byte `zext_8(P)` (41_padder.md R64). -/
def padByte (p : Nat) : Byte := BitVec.ofNat 8 p

/-- The bytes of `W` that `DIGEST n` needs: `n + p + 16` (44_digest_command.md R82). -/
def bufferNeed (n : Nat) : Nat := n + padCount n + 16

/-- The index in `W` of position `j` of block `i` (42_checksum.md R68; 43_compressor.md R74). -/
def blockIndex (i j : Nat) : Nat := 16 * i + j

/-- Whether a block follows block `i` in a buffer of length `len`: `16 (I + 1) < LEN`
(42_checksum.md R68; 43_compressor.md R76). -/
def moreBlocks (i len : Nat) : Bool := decide (16 * (i + 1) < len)

end Sys2Proof.Machine
end

