-- ==== Sys2Proof/Machine/Ops.lean ====
section
/-! DEFINITION. The named operations over registers and memory that the meanings share: register files, the byte
spaces `IN` and `W`, taking a fault and leaving the fault state, `RESET`, the acceptance of a command, and the host's
reads of the engine's registers. -/

namespace Sys2Proof.Machine

/-- What a step answers. -/
abbrev Result := Host.Outcome State Fault Refusal

/-! ## Register files -/

/-- Register `k` of a file; `k` is inside the file wherever the model calls it. -/
def regRead {n : Nat} (v : RegFile n) (k : Nat) : Byte := v.toList.getD k 0x00#8

/-- The file with `b` in register `k`. -/
def regWrite {n : Nat} (v : RegFile n) (k : Nat) (b : Byte) : RegFile n := v.setIfInBounds k b

/-- The file whose register `k` holds `f k`. -/
def regBuild (n : Nat) (f : Nat → Byte) : RegFile n := ⟨((List.range n).map f).toArray, by simp⟩

/-- A file of zeros. -/
def regZero (n : Nat) : RegFile n := Vector.replicate n 0x00#8

/-! ## The byte spaces -/

/-- `W` has room for `n` bytes: `n <= W_CAP` (00_scope.md R6; 44_digest_command.md R82). -/
def State.wFits (s : State) (n : Nat) : Bool :=
  match s.wCap with
  | none => true
  | some cap => decide (n ≤ cap)

/-- `MemRead(IN, a, 1)`: the indices of `IN` are 0 .. `NIN` - 1 (20_memory.md R28). -/
def readIN (s : State) (a : Nat) : Except Fault Byte :=
  if a < s.nin then .ok (s.inp.read a) else .error (.outsideIN a)

/-- `MemRead(W, a, 1)` for `n` ascending indices from `a` on: the indices of `W` are 0 .. `W_CAP` - 1
(10_state.md R22). -/
def readW (s : State) (a n : Nat) : Except Fault (List Byte) :=
  if s.wFits (a + n) then .ok (s.w.readBytes a n) else .error (.outsideW (a + n - 1))

/-- `MemWrite(W, a + j, 1, bs[j])` for each byte of `bs` (10_state.md R22). -/
def writeW (s : State) (a : Nat) (bs : List Byte) : Except Fault State :=
  if s.wFits (a + bs.length) then .ok { s with w := s.w.writeBytes a bs }
  else .error (.outsideW (a + bs.length - 1))

/-! ## Faults, `RESET`, acceptance -/

/-- Taking a fault, in full: `PHASE <- FAULT`, `ERR <- code`, `OUT` not valid because `PHASE` is not `DONE`; nothing
is saved and nothing else is written (60_exceptions.md R95). -/
def raiseError (e : Err) (s : State) : State := { s with phase := .fault, err := e }

/-- The start of acceptance, which is also the way a command leaves `FAULT`: `ERR <- 0`, and `OUT` becomes not valid
with the phase that acceptance goes to (44_digest_command.md R82; 60_exceptions.md R96). -/
def clearError (s : State) : State := { s with err := .none }

/-- The `RESET` event, the other way out of `FAULT`: `IDLE`, `ERR` 0, `OUT` not valid (70_reset_and_hazards.md R104;
60_exceptions.md R96). The rest is unspecified from here on (10_state.md R27). DESIGN CHOICE (assumption 8): the
private state keeps what it held, as 92_eei_decisions.md D30 and 93_implementation_defined.md U1 allow, and `OUT[0..15]`
keeps its old bytes, which no host read returns (assumption 7). -/
def resetEvent (s : State) : State := { s with phase := .idle, err := .none }

/-- The latches of an accepted `DIGEST n` (44_digest_command.md R82). -/
def startInvocation (n : Nat) (s : State) : State :=
  { s with nin := n, p := padCount n, len := 0, q := 0, phase := if n > 0 then .copy else .pad }

/-- Acceptance of `DIGEST n` when the engine is not `BUSY` (44_digest_command.md R82). -/
def acceptDigest (n : Nat) (s : State) : State :=
  if (clearError s).wFits (bufferNeed n) then startInvocation n (clearError s)
  else raiseError .resourceExhausted (clearError s)

/-- Acceptance of a word whose opcode is not 0x01, when the engine is not `BUSY` (60_exceptions.md R91). -/
def acceptIllegal (s : State) : State := raiseError .illegalCommand (clearError s)

/-! ## The host's reads -/

/-- A free byte, and the state that has drawn it (93_implementation_defined.md U3; assumption 7). DESIGN CHOICE
(assumption 7): the byte depends on nothing but how many this engine has drawn, so two engines, or two runs, that have
drawn equally many get the same unknown byte; how such reads relate the spec leaves open (10_state.md R21;
70_reset_and_hazards.md R108). -/
def drawByte (s : State) : Byte × State := (Config.freeByte s.draws, { s with draws := s.draws + 1 })

/-- The byte the host reads at an offset: `CMD` reads 0, then `STATUS`, then the reserved offsets, which read 0, then
`OUT` (20_memory.md R36; 10_state.md R19, R20, R21; 92_eei_decisions.md D31). -/
def hostReadByte (s : State) (off : Nat) : Except Refusal (Byte × State) :=
  if off < 0x08 then .ok (0x00#8, s)
  else if off = 0x08 then .ok (s.status, s)
  else if off < 0x10 then .ok (0x00#8, s)
  else if off < 0x20 then
    (if s.outValid then .ok (regRead s.out (off - 0x10), s) else .ok (drawByte s))
  else .error (.notAnEngineOffset off)

/-- A read transaction: the lowest index at the lowest address (20_memory.md R33). -/
def hostRead : Nat → Nat → State → Except Refusal (List Byte × State)
  | _, 0, s => .ok ([], s)
  | off, n + 1, s =>
    match hostReadByte s off with
    | .error e => .error e
    | .ok (b, s') =>
      match hostRead (off + 1) n s' with
      | .error e => .error e
      | .ok (bs, s'') => .ok (b :: bs, s'')

end Sys2Proof.Machine
end

