-- ==== Sys2Proof/Machine/Checksum.lean ====
section
/-! DEFINITION. The checksum stage (42_checksum.md): `CKINIT`, `CKSTEP`, `CKAPP`. -/

namespace Sys2Proof.Machine

/-- `CKINIT` (R67): the accumulator, `L`, `I` and `K` become 0. -/
def execCkinit (s : State) : Result :=
  .next { s with c := regZero 16, l := 0x00#8, i := 0, k := 0, phase := .cks }

/-- Where `CKSTEP` goes next (R68): the next position, the next block, or `CKA`. -/
def nextCkstep (s : State) : State :=
  if s.k < 15 then { s with k := s.k + 1 }
  else if moreBlocks s.i s.len then { s with k := 0, i := s.i + 1 }
  else { s with k := 0, phase := .cka }

/-- `CKSTEP` (R68): the byte `c` at `W[16 I + K]` is looked up as `SUB(c XOR L)`; the result is assigned to `C[K]`,
whose old value is not read, and to `L`. -/
def execCkstep (s : State) : Result :=
  match readW s (blockIndex s.i s.k) 1 with
  | .error f => .fault f
  | .ok bs =>
    let val := sub (bs.headD 0x00#8 ^^^ s.l)
    if s.k < 16 then .next (nextCkstep { s with c := regWrite s.c s.k val, l := val })
    else .fault (.outsideC s.k)

/-- `CKAPP` (R69): `C[0..15]` go to the end of `W`, `C[0]` at the lowest index. -/
def execCkapp (s : State) : Result :=
  match writeW s s.len s.c.toList with
  | .error f => .fault f
  | .ok s' => .next { s' with len := s.len + 16, phase := .xi }

end Sys2Proof.Machine
end

