-- ==== Sys2Proof/Machine/Compressor.lean ====
section
/-! DEFINITION. The 16-byte block compressor (43_compressor.md): `XINIT`, `LDBLK`, `MIX`, `RADJ`, `EXTRACT`. -/

namespace Sys2Proof.Machine

/-- `XINIT` (R73): `X`, `T` and `I` become 0. -/
def execXinit (s : State) : Result :=
  .next { s with x := regZero 48, t := 0x00#8, i := 0, phase := .ldb }

/-- The state buffer with a block loaded (R74): `X[0..15]` kept, the block in `X[16..31]`, their exclusive-or in
`X[32..47]`. -/
def loadBlock (x : RegFile 48) (block : List Byte) : RegFile 48 :=
  regBuild 48 fun k =>
    if k < 16 then regRead x k
    else if k < 32 then block.getD (k - 16) 0x00#8
    else regRead x (k - 32) ^^^ block.getD (k - 32) 0x00#8

/-- `LDBLK` (R74): block `I` of `W` is loaded, and `T`, `R` and `K` become 0 (`T` by 90_conflicts.md C2). -/
def execLdblk (s : State) : Result :=
  match readW s (blockIndex s.i 0) 16 with
  | .error f => .fault f
  | .ok block => .next { s with x := loadBlock s.x block, t := 0x00#8, r := 0, k := 0, phase := .mix }

/-- Where `MIX` goes next (R75): the next position, or `RADJ`. -/
def nextMix (s : State) : State :=
  if s.k < 47 then { s with k := s.k + 1 } else { s with k := 0, phase := .radj }

/-- `MIX` (R75): `X[K] XOR SUB(T)`, from the old `X[K]` and the old `T`, goes to both. -/
def execMix (s : State) : Result :=
  if s.k < 48 then
    let v := regRead s.x s.k ^^^ sub s.t
    .next (nextMix { s with t := v, x := regWrite s.x s.k v })
  else .fault (.outsideX s.k)

/-- `RADJ` (R76): `T <- (T + R) mod 256`; then the next round, the next block, or `EXT`. -/
def execRadj (s : State) : Result :=
  let t' := s.t + BitVec.ofNat 8 s.r
  if s.r < 17 then .next { s with t := t', r := s.r + 1, phase := .mix }
  else if moreBlocks s.i s.len then .next { s with t := t', r := 0, i := s.i + 1, phase := .ldb }
  else .next { s with t := t', r := 0, phase := .ext }

/-- `EXTRACT` (R77): `X[0..15]` go to `OUT[0..15]`, and `OUT` becomes valid with `PHASE = DONE`. -/
def execExtract (s : State) : Result :=
  .next { s with out := regBuild 16 (regRead s.x), phase := .done }

end Sys2Proof.Machine
end

