-- ==== Sys2Proof/Machine/Digest.lean ====
section
/-! DEFINITION. The host command `DIGEST` (44_digest_command.md). -/

namespace Sys2Proof.Machine

/-- `DIGEST n` (R81): acceptance (R82), or no effect at all while the engine is `BUSY` (60_exceptions.md R92). -/
def execDigest (n : Nat) (s : State) : Result :=
  .next (if s.busy then s else acceptDigest n s)

end Sys2Proof.Machine
end

