-- ==== Sys2Proof/Machine/Padder.lean ====
section
/-! DEFINITION. The byte-stream padder (41_padder.md): `COPYB`, `PADB`. -/

namespace Sys2Proof.Machine

/-- `COPYB` (R63): the next byte of `IN` goes to the end of `W`. -/
def execCopyb (s : State) : Result :=
  match readIN s s.q with
  | .error f => .fault f
  | .ok b =>
    match writeW s s.len [b] with
    | .error f => .fault f
    | .ok s' =>
      if s.q + 1 = s.nin then .next { s' with len := s.len + 1, q := 0, phase := .pad }
      else .next { s' with len := s.len + 1, q := s.q + 1 }

/-- `PADB` (R64): one pad byte, of value `P`, goes to the end of `W`. -/
def execPadb (s : State) : Result :=
  match writeW s s.len [padByte s.p] with
  | .error f => .fault f
  | .ok s' =>
    if s.q + 1 = s.p then .next { s' with len := s.len + 1, q := s.q + 1, phase := .cki }
    else .next { s' with len := s.len + 1, q := s.q + 1 }

end Sys2Proof.Machine
end

