-- ==== Sys2Proof/Machine/Dispatch.lean ====
section
/-! DEFINITION. One arm per instruction. -/

namespace Sys2Proof.Machine

/-- The effect of one instruction on a state. -/
def exec (i : Instr) (s : State) : Host.Outcome State Fault Refusal :=
  match i with
  | .digest n => Sys2Proof.Machine.execDigest n s
  | .copyb => Sys2Proof.Machine.execCopyb s
  | .padb => Sys2Proof.Machine.execPadb s
  | .ckinit => Sys2Proof.Machine.execCkinit s
  | .ckstep => Sys2Proof.Machine.execCkstep s
  | .ckapp => Sys2Proof.Machine.execCkapp s
  | .xinit => Sys2Proof.Machine.execXinit s
  | .ldblk => Sys2Proof.Machine.execLdblk s
  | .mix => Sys2Proof.Machine.execMix s
  | .radj => Sys2Proof.Machine.execRadj s
  | .extract => Sys2Proof.Machine.execExtract s

end Sys2Proof.Machine
end

