-- ==== Sys2Proof/Machine/Sequencer.lean ====
section
/-! DEFINITION. The sequencer: the operation a step executes is the one `PHASE` selects (10_state.md R16, R17). -/

namespace Sys2Proof.Machine

/-- The operation the next engine step executes, if the engine has a step (30_encoding.md R46). -/
def issued (s : State) : Option Instr :=
  match decodeSelector s.phase.code with
  | .ok i => some i
  | .error _ => none

/-- One engine step. In `IDLE`, `DONE` and `FAULT` the engine has no step and nothing changes
(60_exceptions.md R103; assumption 6). -/
def engineStep (s : State) : Result :=
  match issued s with
  | some i => exec i s
  | none => .next s

end Sys2Proof.Machine
end

