-- ==== Sys2Proof/Machine/HostPort.lean ====
section
/-! DEFINITION. The host's moves (70_reset_and_hazards.md R116), each one step. -/

namespace Sys2Proof.Machine

/-- A 64-bit write to `CMD`: decoded and accepted, or, while the engine is `BUSY`, without any effect
(10_state.md R20; 44_digest_command.md R82; 60_exceptions.md R91, R92). -/
def hostWriteCmd (w : CommandWord) (s : State) : Result :=
  match decodeCommand w with
  | .ok i => exec i s
  | .error _ => .next (if s.busy then s else acceptIllegal s)

/-- A write of one byte: ignored at `STATUS`, `OUT` and the reserved offsets (92_eei_decisions.md D31). -/
def hostWriteByte (off : Nat) (s : State) : Result :=
  if off < 0x08 then .refused (.splitCommandWrite off)
  else if off < 0x20 then .next s
  else .refused (.notAnEngineOffset off)

/-- A read transaction; the host keeps what it returned (44_digest_command.md R86). -/
def hostReadMove (off n : Nat) (s : State) : Result :=
  match hostRead off n s with
  | .error e => .refused e
  | .ok (bs, s') => .next { s' with rdata := bs }

/-- The host puts the input in place, which it must not do while the engine is `BUSY`
(70_reset_and_hazards.md R106, R107; 93_implementation_defined.md U4). -/
def hostPresent (bytes : List Byte) (s : State) : Result :=
  if s.busy then .refused .inputHeldWhileBusy
  else .next { s with inp := Memory.ofBytes bytes }

/-- One host move. -/
def hostStep (m : HostMove) (s : State) : Result :=
  match m with
  | .wait => engineStep s
  | .reset _ => .next (resetEvent s)
  | .writeCmd w => hostWriteCmd w s
  | .writeByte off _ => hostWriteByte off s
  | .read off n => hostReadMove off n s
  | .present bytes => hostPresent bytes s

/-- `DIGEST <n>`: `WRCMD` of `n * 256 + 1` (30_encoding.md R52). It stands for a command only for `n` below 2^56; beyond
that it is the write of `encodeDigest n`, the word of `n mod 2^56` (DESIGN CHOICE, assumption 18). -/
def HostMove.digest (n : Nat) : HostMove := .writeCmd (encodeDigest n)

/-- `RDSTAT`: a host read of `STATUS` (30_encoding.md R52). -/
def HostMove.rdstat : HostMove := .read 0x08 1

/-- `RDOUT`: a host read of `OUT[0..15]` in index order (30_encoding.md R52). -/
def HostMove.rdout : HostMove := .read 0x10 16

end Sys2Proof.Machine
end

