-- ==== Sys2Proof/Machine/Step.lean ====
section
/-! DEFINITION. One step of the machine: the host's next move if there is one, else the engine's step. -/

namespace Sys2Proof.Machine

/-- One step (assumption 5: the list `host` says which agent moves). -/
def step (s : State) : Host.Outcome State Fault Refusal :=
  match s.host with
  | [] => engineStep s
  | m :: rest => hostStep m { s with host := rest }

/-- `s` with an instruction placed where the next step takes it from: a selector goes into `PHASE`, with no host
move before the engine's step; a command word becomes the host's next move (assumption 13). `COPYB` is issued only
while `Q < NIN` (41_padder.md R63), so `NIN` is raised where it is not beyond `Q`. -/
def State.withFetchWord (s : State) (nbits w : Nat) : State :=
  if nbits ≤ 8 then
    match Phase.ofCode w with
    | some .copy => { s with phase := .copy, host := [], nin := max s.nin (s.q + 1) }
    | some ph => { s with phase := ph, host := [] }
    | none => s
  else { s with host := .writeCmd (BitVec.ofNat 64 w) :: s.host }

end Sys2Proof.Machine
end

