-- ==== Sys2Proof/Machine/Functions.lean ====
section
/-! DEFINITION. The functional definitions, normative for values (00_scope.md R9): `Pad`, `Ck`, `Comp`, `Digest`, and
`Hex`. No operation of the engine calls them. -/

namespace Sys2Proof.Machine

/-- `Pad(m) = m ++ [p]^p` (41_padder.md R61). -/
def padded (m : List Byte) : List Byte :=
  m ++ List.replicate (padCount m.length) (padByte (padCount m.length))

/-- The accumulator and `L` after one byte of `Ck` (42_checksum.md R65): block `i`, position `j`. -/
def ckByte (b : List Byte) (i : Nat) (acc : RegFile 16 × Byte) (j : Nat) : RegFile 16 × Byte :=
  let val := sub (b.getD (blockIndex i j) 0x00#8 ^^^ acc.2)
  (regWrite acc.1 j val, val)

/-- The accumulator and `L` after one block of `Ck` (42_checksum.md R65). -/
def ckBlock (b : List Byte) (acc : RegFile 16 × Byte) (i : Nat) : RegFile 16 × Byte :=
  (List.range 16).foldl (ckByte b i) acc

/-- The accumulator and `L` after all blocks (42_checksum.md R65). -/
def ckRun (b : List Byte) : RegFile 16 × Byte :=
  (List.range (b.length / 16)).foldl (ckBlock b) (regZero 16, 0x00#8)

/-- `Ck(b)` (42_checksum.md R65). -/
def checksum (b : List Byte) : RegFile 16 := (ckRun b).1

/-- `X` and `T` after one position of a round (43_compressor.md R70). -/
def mixPosition (acc : RegFile 48 × Byte) (k : Nat) : RegFile 48 × Byte :=
  let v := regRead acc.1 k ^^^ sub acc.2
  (regWrite acc.1 k v, v)

/-- `X` and `T` after round `r` (43_compressor.md R70). -/
def mixRound (acc : RegFile 48 × Byte) (r : Nat) : RegFile 48 × Byte :=
  let done := (List.range 48).foldl mixPosition acc
  (done.1, done.2 + BitVec.ofNat 8 r)

/-- `X` after block `i`: steps 1 and 2, `T <- 0`, and 18 rounds (43_compressor.md R70). -/
def compBlock (b : List Byte) (x : RegFile 48) (i : Nat) : RegFile 48 :=
  let loaded := regBuild 48 fun k =>
    if k < 16 then regRead x k
    else if k < 32 then b.getD (blockIndex i (k - 16)) 0x00#8
    else regRead x (k - 32) ^^^ b.getD (blockIndex i (k - 32)) 0x00#8
  ((List.range 18).foldl mixRound (loaded, 0x00#8)).1

/-- `X` after every block of `b` (43_compressor.md R70). -/
def compRun (b : List Byte) : RegFile 48 :=
  (List.range (b.length / 16)).foldl (compBlock b) (regZero 48)

/-- `Comp(b) = X[0..15]` (43_compressor.md R70). -/
def compress (b : List Byte) : RegFile 16 := regBuild 16 (regRead (compRun b))

/-- `Digest(m) = Comp(Pad(m) ++ Ck(Pad(m)))` (44_digest_command.md R79). -/
def digest (m : List Byte) : RegFile 16 := compress (padded m ++ (checksum (padded m)).toList)

/-- The lower-case hexadecimal digit of a value below 16. -/
def hexDigit (n : Nat) : Char := "0123456789abcdef".toList.getD n '0'

/-- `Hex(d)`: two digits per byte, most significant nibble first, byte 0 first (44_digest_command.md R87). -/
def hex (d : RegFile 16) : List Char :=
  d.toList.flatMap fun b => [hexDigit (b.toNat / 16), hexDigit (b.toNat % 16)]

end Sys2Proof.Machine
end

