-- ==== Sys2Proof/Machine/System.lean ====
section
/-! DEFINITION. Several engines (60_exceptions.md R101): each has a whole state of its own, and they share nothing but
the constant table, and in the model the sequence of free bytes (assumption 7). One of them steps at a time
(assumption 14). -/

namespace Sys2Proof.Machine

/-- `N_ENG` engine instances (00_scope.md R6). -/
abbrev System := List State

/-- All engines after `RESET` (60_exceptions.md R101). -/
def System.reset (n : Nat) : System := List.replicate n State.reset

/-- Engine `e` takes a step; a number that names no engine steps nothing. -/
def System.stepAt (e : Nat) (sys : System) : Host.Outcome System Fault Refusal :=
  match sys[e]? with
  | none => .next sys
  | some s =>
    match step s with
    | .next s' => .next (sys.set e s')
    | .fault f => .fault f
    | .refused r => .refused r

end Sys2Proof.Machine
end

