-- ==== Sys2Proof/Machine/Trace.lean ====
section
/-! DEFINITION. Sequencer traces (30_encoding.md R52) and the pseudo-instructions, names for fixed runs of operations
(R53); the operation sequence of an accepted `DIGEST n` (44_digest_command.md R83). -/

namespace Sys2Proof.Machine

/-- An operation of a trace with the counters R83 lists for it: `Q` for `COPYB` and `PADB`, `I`, `K` for `CKSTEP`, `I`
for `LDBLK`, `I`, `R`, `K` for `MIX`, `I`, `R` for `RADJ`. -/
abbrev TraceItem := Instr × List Nat

/-- `LOAD`: `NIN x COPYB` (R53). -/
def traceLoad (n : Nat) : List TraceItem := (List.range n).map fun q => (.copyb, [q])

/-- `PAD`: `P x PADB` (R53). -/
def tracePad (p : Nat) : List TraceItem := (List.range p).map fun q => (.padb, [q])

/-- `CKSUM`: `CKINIT; Nb x { 16 x CKSTEP }; CKAPP` (R53). -/
def traceCksum (nb : Nat) : List TraceItem :=
  (.ckinit, []) ::
    ((List.range nb).flatMap fun i => (List.range 16).map fun k => (Instr.ckstep, [i, k])) ++ [(.ckapp, [])]

/-- `ROUND r` of block `i`: `48 x MIX; RADJ` (R53). -/
def traceRound (i r : Nat) : List TraceItem :=
  (List.range 48).map (fun k => (Instr.mix, [i, r, k])) ++ [(.radj, [i, r])]

/-- `BLOCK i`: `LDBLK; ROUND 0; ...; ROUND 17` (R53). -/
def traceBlock (i : Nat) : List TraceItem :=
  (.ldblk, [i]) :: (List.range 18).flatMap (traceRound i)

/-- `COMPRESS`: `XINIT; BLOCK 0; ...; BLOCK Nb; EXTRACT` (R53). -/
def traceCompress (nb : Nat) : List TraceItem :=
  (.xinit, []) :: (List.range (nb + 1)).flatMap traceBlock ++ [(.extract, [])]

/-- `Nb = (n + p) / 16`, the number of data blocks (44_digest_command.md R83). -/
def dataBlocks (n : Nat) : Nat := (n + padCount n) / 16

/-- `DIGEST n` as a trace: `LOAD; PAD; CKSUM; COMPRESS` (R53; 44_digest_command.md R83). -/
def traceDigest (n : Nat) : List TraceItem :=
  traceLoad n ++ tracePad (padCount n) ++ traceCksum (dataBlocks n) ++ traceCompress (dataBlocks n)

/-- The number of steps after acceptance: `n + p + 16 Nb + 883 N + 4` with `N = Nb + 1` (44_digest_command.md R83;
70_reset_and_hazards.md R118). -/
def stepCount (n : Nat) : Nat := n + padCount n + 16 * dataBlocks n + 883 * (dataBlocks n + 1) + 4

end Sys2Proof.Machine
end

