-- ==== Sys2Proof/Safety.lean ====
section
/-! DEFINITION. The invariant of the machine, what the host can observe, and runs. -/

namespace Sys2Proof.Machine

/-- `W_CAP` is at least 32, or unbounded (00_scope.md R6). -/
def State.capacityLegal (s : State) : Prop := ∀ cap, s.wCap = some cap → 32 ≤ cap

/-- Both memories are in canonical form. -/
def State.memoriesWf (s : State) : Prop := s.w.wf = true ∧ s.inp.wf = true

/-- `ERR` is nonzero exactly when `STATE` = 3 (10_state.md R19). -/
def State.errInv (s : State) : Prop := s.err ≠ .none ↔ s.phase = .fault

/-- What acceptance established and holds as long as the engine is `BUSY` (44_digest_command.md R82). -/
def State.accepted (s : State) : Prop :=
  s.nin < 2 ^ Config.lenBits ∧ s.p = padCount s.nin ∧ s.wFits (bufferNeed s.nin) = true

/-- Where the counters stand in each phase (10_state.md R15; 41_padder.md R63, R64; 42_checksum.md R68, R69;
43_compressor.md R74, R75, R76). Outside `BUSY` they are unspecified (10_state.md R25, R27). -/
def State.phaseInv (s : State) : Prop :=
  match s.phase with
  | .idle => True
  | .copy => s.accepted ∧ s.len = s.q ∧ s.q < s.nin
  | .pad => s.accepted ∧ s.len = s.nin + s.q ∧ s.q < s.p
  | .cki => s.accepted ∧ s.len = s.nin + s.p
  | .cks => s.accepted ∧ s.len = s.nin + s.p ∧ s.k < 16 ∧ 16 * (s.i + 1) ≤ s.len
  | .cka => s.accepted ∧ s.len = s.nin + s.p
  | .xi => s.accepted ∧ s.len = s.nin + s.p + 16
  | .ldb => s.accepted ∧ s.len = s.nin + s.p + 16 ∧ 16 * (s.i + 1) ≤ s.len
  | .mix => s.accepted ∧ s.len = s.nin + s.p + 16 ∧ 16 * (s.i + 1) ≤ s.len ∧ s.r < 18 ∧ s.k < 48
  | .radj => s.accepted ∧ s.len = s.nin + s.p + 16 ∧ 16 * (s.i + 1) ≤ s.len ∧ s.r < 18 ∧ s.k = 0
  | .ext => s.accepted ∧ s.len = s.nin + s.p + 16
  | .done => True
  | .fault => True

/-- The invariant. -/
def State.Inv (s : State) : Prop :=
  s.capacityLegal ∧ s.memoriesWf ∧ s.errInv ∧ s.phaseInv

/-- What the host can see of the engine without a free value: `STATUS`, and `OUT` while it is valid
(10_state.md R24). -/
structure Observation where
  status : Byte
  out : Option (RegFile 16)
  deriving DecidableEq, Repr

/-- The observation of a state. -/
def State.observe (s : State) : Observation :=
  ⟨s.status, if s.outValid then some s.out else none⟩

/-- `n` steps, stopping at the first fault or refusal. -/
def run : Nat → State → Result
  | 0, s => .next s
  | n + 1, s =>
    match step s with
    | .next s' => run n s'
    | .fault f => .fault f
    | .refused r => .refused r

/-- The counters a trace lists for an operation (44_digest_command.md R83). -/
def traceCounters (i : Instr) (s : State) : List Nat :=
  match i with
  | .digest _ => []
  | .copyb => [s.q]
  | .padb => [s.q]
  | .ckinit => []
  | .ckstep => [s.i, s.k]
  | .ckapp => []
  | .xinit => []
  | .ldblk => [s.i]
  | .mix => [s.i, s.r, s.k]
  | .radj => [s.i, s.r]
  | .extract => []

/-- The next step is the engine's own: the host makes no move, or waits. -/
def State.enginesTurn (s : State) : Bool :=
  match s.host with
  | [] => true
  | m :: _ => decide (m = .wait)

/-- The operation the engine executes in the next step, if any, as a trace of length at most one. -/
def executed (s : State) : List TraceItem :=
  match s.enginesTurn, issued s with
  | true, some i => [(i, traceCounters i s)]
  | _, _ => []

/-- The operations the engine executes in `n` steps of the machine, whatever the host does between them
(30_encoding.md R52). -/
def trace : Nat → State → List TraceItem
  | 0, _ => []
  | n + 1, s =>
    executed s ++
      match step s with
      | .next s' => trace n s'
      | .fault _ => []
      | .refused _ => []

/-- A host move that, while the engine is `BUSY`, the spec defines and that leaves the invocation alone: waiting,
reading the engine's registers, a `CMD` write, which is dropped (60_exceptions.md R92), and a write that is ignored
(92_eei_decisions.md D31). -/
def HostMove.quiet : HostMove → Bool
  | .wait => true
  | .reset _ => false
  | .writeCmd _ => true
  | .writeByte off _ => 0x08 ≤ off && off < 0x20
  | .read off n => off + n ≤ 0x20
  | .present _ => false

/-- The host makes the quiet moves `moves` while the engine takes `n` steps, and no other move before the last of
them: either the last of `moves` is the wait in which the engine takes its last step and `rest` comes after it, or
`moves` ends before that step and nothing comes after. -/
def Undisturbed (n : Nat) (moves rest : List HostMove) : Prop :=
  (∀ m ∈ moves, m.quiet = true) ∧
    ((moves.count .wait = n ∧ ∀ m, moves.getLast? = some m → m = .wait) ∨ (moves.count .wait < n ∧ rest = []))

/-- The number of steps of the machine in which the engine takes `n` steps and the host makes `moves`: each move but
a wait is a step of its own. -/
def runLength (n : Nat) (moves : List HostMove) : Nat := n + moves.countP (· ≠ .wait)

/-- Two states whose control state is the same: `pc = (PHASE, Q, I, R, K)` with the latches it is compared with
(10_state.md R16). -/
def SameControl (s t : State) : Prop :=
  s.phase = t.phase ∧ s.q = t.q ∧ s.i = t.i ∧ s.r = t.r ∧ s.k = t.k ∧
    s.nin = t.nin ∧ s.p = t.p ∧ s.len = t.len ∧ s.wCap = t.wCap

/-- Two states that differ at most in the private state and in an `OUT` that is not valid (10_state.md R21, R24, R25):
the phase, `ERR`, a valid `OUT`, `IN`, the capacity, the host's moves and what the host has read are the same. So is the
count of free bytes drawn: the two are compared for the same values of the reads the spec leaves undefined, of which the
model has one sequence for all states (assumption 7). -/
def SamePublic (s t : State) : Prop :=
  s.phase = t.phase ∧ s.err = t.err ∧ (s.phase = .done → s.out = t.out) ∧ s.inp = t.inp ∧ s.wCap = t.wCap ∧
    s.host = t.host ∧ s.rdata = t.rdata ∧ s.draws = t.draws

/-- Two outcomes a host cannot tell apart: the same stop, or next states with the same observation in which the host
has read the same bytes. -/
def Indistinguishable : Result → Result → Prop
  | .next s, .next t => s.observe = t.observe ∧ s.rdata = t.rdata ∧ s.inp = t.inp ∧ s.host = t.host
  | .fault f, .fault g => f = g
  | .refused a, .refused b => a = b
  | _, _ => False

end Sys2Proof.Machine
end

