-- ==== Sys2Proof/Certificates/Slice0/Obligations.lean ====
section
/-! DEFINITION. The statements for the provers, one `def Obligations.<Name> : Prop` each, listed in OBLIGATIONS.json. -/

open Sys2Proof Sys2Proof.Machine

/-! ## Encoding -/

/-- When what stands next decodes to an instruction, a step is `exec` of it: the operation `PHASE` selects when the
host makes no move (or waits), the command when the host writes one. In `IDLE`, `DONE` and `FAULT` the engine has no
step and nothing changes (assumption 6 for the last). -/
def Obligations.StepRunsDecodedInstruction : Prop :=
  ∀ (s : State) (i : Instr),
    (s.host = [] → decodeSelector s.phase.code = .ok i → step s = exec i s) ∧
    (∀ rest, s.host = .wait :: rest → decodeSelector s.phase.code = .ok i →
      step s = exec i { s with host := rest }) ∧
    (∀ w rest, s.host = .writeCmd w :: rest → decodeCommand w = .ok i →
      i.wf = true ∧ step s = exec i { s with host := rest }) ∧
    (s.host = [] → (∀ j, decodeSelector s.phase.code ≠ .ok j) → step s = .next s)

/-- Words written out from 30_encoding.md R45 and R46 decode to what they stand for; the codes that select nothing are
refused by name. -/
def Obligations.SampleWordsDecode : Prop :=
  decodeCommand 0x0000000000000001#64 = .ok (.digest 0) ∧
  decodeCommand 0x0000000000000301#64 = .ok (.digest 3) ∧
  decodeCommand 0xffffffffffffff01#64 = .ok (.digest 72057594037927935) ∧
  decodeCommand 0x0000000000000300#64 = .error (.illegalOpcode 0x00#8) ∧
  decodeSelector 0b0001#4 = .ok .copyb ∧ decodeSelector 0b0010#4 = .ok .padb ∧
  decodeSelector 0b0011#4 = .ok .ckinit ∧ decodeSelector 0b0100#4 = .ok .ckstep ∧
  decodeSelector 0b0101#4 = .ok .ckapp ∧ decodeSelector 0b0110#4 = .ok .xinit ∧
  decodeSelector 0b0111#4 = .ok .ldblk ∧ decodeSelector 0b1000#4 = .ok .mix ∧
  decodeSelector 0b1001#4 = .ok .radj ∧ decodeSelector 0b1010#4 = .ok .extract ∧
  decodeSelector 0b0000#4 = .error (.noOperation 0b0000#4) ∧
  decodeSelector 0b1011#4 = .error (.noOperation 0b1011#4) ∧
  decodeSelector 0b1100#4 = .error (.noOperation 0b1100#4) ∧
  decodeSelector 0b1101#4 = .error (.reservedSelector 0b1101#4) ∧
  decodeSelector 0b1110#4 = .error (.reservedSelector 0b1110#4) ∧
  decodeSelector 0b1111#4 = .error (.reservedSelector 0b1111#4)

/-- Decoding the encoding of a well-formed instruction gives it back, from its code and from its stored bytes
(30_encoding.md R45, R46; the bytes: 20_memory.md R33, and assumption 12 for a selector). -/
def Obligations.DecodeEncodeAgree : Prop :=
  ∀ i : Instr, i.wf = true → decode (encode i) = .ok i ∧ decodeBytes (encodeBytes i) = .ok i

/-- A code that decodes to an instruction is its encoding, and the instruction is well formed. -/
def Obligations.EncodeDecodeAgree : Prop :=
  ∀ (c : Code) (i : Instr), decode c = .ok i → encode i = c ∧ i.wf = true

/-- 30_encoding.md R45, R49: decoding is total on 64-bit words; the opcode is the word modulo 256 and the length the
rest of the word, all 56 bits of it. -/
def Obligations.CommandDecodingIsTotal : Prop :=
  ∀ w : CommandWord,
    w.toNat / 256 < 2 ^ 56 ∧
    (w.toNat % 256 = 1 → decodeCommand w = .ok (.digest (w.toNat / 256))) ∧
    (w.toNat % 256 ≠ 1 → decodeCommand w = .error (.illegalOpcode (BitVec.ofNat 8 (w.toNat % 256))))

/-! ## The table -/

/-- The Substitution Table is a bijection on bytes, and iterating it from 0 gives the values 40_sbox.md lists. -/
def Obligations.SboxIsBijection : Prop :=
  Function.Bijective sub ∧
  (List.range 17).map (fun k => sub^[k + 1] 0x00#8) =
    [0x29#8, 0x42#8, 0x79#8, 0xfc#8, 0x9f#8, 0x0f#8, 0x13#8, 0xf3#8, 0xb4#8, 0x85#8, 0x71#8, 0xb8#8, 0xd3#8,
      0x8b#8, 0x65#8, 0xa5#8, 0x51#8]

/-- 40_sbox.md R57: `SUB(b)` is the entry of the 256-entry table at the whole byte `b`, with the corner cases R57
gives. -/
def Obligations.SubReadsTheTableEntry : Prop :=
  sRows.flatten.length = 256 ∧
  (∀ b : Byte, sRows.flatten[b.toNat]? = some (sub b)) ∧
  sub 0x00#8 = 0x29#8 ∧ sub 0xff#8 = 0x14#8 ∧ sub 0x10#8 = 0x62#8 ∧
  (∀ b : Byte, sub b ≠ b) ∧ (∀ b : Byte, sub b = 0x00#8 ↔ b = 0xdd#8)

/-! ## Commands, faults, reset -/

/-- 44_digest_command.md R82: what a 64-bit write to `CMD` does, in every state. -/
def Obligations.AcceptanceOfCommandWord : Prop :=
  ∀ (s : State) (w : CommandWord) (rest : List HostMove), s.host = .writeCmd w :: rest →
    let n := w.toNat / 256
    let p := 16 - n % 16
    (s.busy = true → step s = .next { s with host := rest }) ∧
    (s.busy = false → w.toNat % 256 ≠ 1 →
      step s = .next { s with host := rest, phase := .fault, err := .illegalCommand }) ∧
    (s.busy = false → w.toNat % 256 = 1 → (∃ cap, s.wCap = some cap ∧ n + p + 16 > cap) →
      step s = .next { s with host := rest, phase := .fault, err := .resourceExhausted }) ∧
    (s.busy = false → w.toNat % 256 = 1 → (∀ cap, s.wCap = some cap → n + p + 16 ≤ cap) →
      step s = .next { s with
        host := rest, err := .none, nin := n, p := p, len := 0, q := 0,
        phase := if n > 0 then .copy else .pad }) ∧
    (s.busy = false → ∀ t, step s = .next t → t.outValid = false)

/-- `DIGEST n` completes: given to an engine that is not `BUSY` and whose `W` has room, it starts an invocation and
changes nothing but the latches, `ERR` and `PHASE`. -/
def Obligations.DigestStartsInvocation : Prop :=
  ∀ (s : State) (n : Nat), s.busy = false → (∀ cap, s.wCap = some cap → n + (16 - n % 16) + 16 ≤ cap) →
    exec (.digest n) s = .next { s with
      err := .none, nin := n, p := 16 - n % 16, len := 0, q := 0, phase := if n > 0 then .copy else .pad }

/-- 60_exceptions.md R90: when `ResourceExhausted` is raised, in its three forms; it writes nothing but `PHASE` and
`ERR`, and never occurs when `W_CAP` is unbounded, where an illegal opcode is the only way a command faults. -/
def Obligations.ResourceExhaustedExactlyWhenTooLong : Prop :=
  ∀ (s : State) (n : Nat), s.busy = false → ∃ t, exec (.digest n) s = .next t ∧
    (s.wCap = none → t.phase ≠ .fault ∧ t.err = .none) ∧
    (∀ cap, s.wCap = some cap →
      (t.err = .resourceExhausted ↔ n + (16 - n % 16) + 16 > cap) ∧
      (t.err = .none ↔ 16 * (n / 16) + 32 ≤ cap) ∧
      (t.err = .resourceExhausted → t = { s with phase := .fault, err := .resourceExhausted }) ∧
      (cap = 32 → (t.err = .none ↔ n ≤ 15)) ∧ (cap = 48 → (t.err = .none ↔ n ≤ 31)))

/-- 60_exceptions.md R92: a write to `CMD` while `BUSY` has no effect on any state, is not queued, and the invocation
goes on as if it had not happened. -/
def Obligations.CommandWhileBusyIsDropped : Prop :=
  ∀ (s : State) (w : CommandWord) (rest : List HostMove), s.busy = true → s.host = .writeCmd w :: rest →
    step s = .next { s with host := rest } ∧ ∀ k, run (k + 1) s = run k { s with host := rest }

/-- 60_exceptions.md R91: an opcode other than 0x01 faults whatever its length field holds; nothing else changes. -/
def Obligations.IllegalCommandFaults : Prop :=
  ∀ (s : State) (w : CommandWord) (rest : List HostMove), s.busy = false → s.host = .writeCmd w :: rest →
    w.toNat % 256 ≠ 1 → ∃ t, step s = .next t ∧ t.outValid = false ∧
      t = { s with host := rest, phase := .fault, err := .illegalCommand }

/-- 60_exceptions.md R94: the opcode decides first; faults arise only at acceptance; `RESET` together with a `CMD`
write loses the write. -/
def Obligations.FaultPriority : Prop :=
  (∀ (s t : State) (w : CommandWord) (rest : List HostMove), s.busy = false → s.host = .writeCmd w :: rest →
    step s = .next t →
      (t.err = .illegalCommand ↔ w.toNat % 256 ≠ 1) ∧ (t.err = .resourceExhausted → w.toNat % 256 = 1)) ∧
  (∀ s t : State, step s = .next t → s.phase ≠ .fault → t.phase = .fault →
    s.busy = false ∧ ∃ w rest, s.host = .writeCmd w :: rest) ∧
  (∀ (s : State) (w : CommandWord) (rest : List HostMove), s.host = .reset (some w) :: rest →
    step s = step { s with host := .reset none :: rest })

/-- 60_exceptions.md R95: taking a fault writes `PHASE` and `ERR` and nothing else, makes `OUT` not valid, and leaves
the engine without a step; the host reads it in `STATUS`. (What a step of an engine without a step answers is
assumption 6 and is not said here.) -/
def Obligations.FaultEntry : Prop :=
  ∀ (s t : State) (w : CommandWord) (rest : List HostMove), s.busy = false → s.host = .writeCmd w :: rest →
    step s = .next t → t.phase = .fault →
      t = { s with host := rest, phase := .fault, err := t.err } ∧ t.outValid = false ∧
      (t.err = .resourceExhausted ∧ t.status = 0x07#8 ∨ t.err = .illegalCommand ∧ t.status = 0x0b#8) ∧
      issued t = none

/-- 60_exceptions.md R96: `FAULT` is left by `RESET`, or by the next command word, which clears `ERR` and is treated
exactly as in `IDLE`; nothing else leaves it. -/
def Obligations.WaysOutOfFault : Prop :=
  (∀ s t : State, s.phase = .fault → step s = .next t → t.phase ≠ .fault →
    (∃ o rest, s.host = .reset o :: rest ∧ t.phase = .idle) ∨
    (∃ w rest, s.host = .writeCmd w :: rest ∧ t.err = .none)) ∧
  (∀ (s : State) (w : CommandWord) (rest : List HostMove), s.phase = .fault → s.host = .writeCmd w :: rest →
    step s = step { s with phase := .idle, err := .none })

/-- 70_reset_and_hazards.md R104: `RESET`, in any state, goes to `IDLE` with `ERR` 0 and `OUT` not valid in one step;
then the engine waits: it has no step. Nothing is said of the state that R104 leaves unspecified. -/
def Obligations.ResetFromAnyState : Prop :=
  ∀ (s : State) (o : Option CommandWord) (rest : List HostMove), s.host = .reset o :: rest →
    ∃ t, step s = .next t ∧ t.phase = .idle ∧ t.err = .none ∧ t.outValid = false ∧ t.status = 0x00#8 ∧
      t.host = rest ∧ issued t = none

/-- 70_reset_and_hazards.md R105: `RESET` cancels a running invocation whole. `OUT` is not valid and `IN` is left as
it was; no digest is produced, because without another `CMD` write `OUT` never becomes valid; no partial result is
observable and the next command starts from nothing, because two engines reset in the middle of any two runs cannot be
told apart by any moves that follow. -/
def Obligations.ResetCancelsInvocation : Prop :=
  (∀ (s : State) (o : Option CommandWord) (rest : List HostMove), s.host = .reset o :: rest →
    ∃ t, step s = .next t ∧ t.outValid = false ∧ t.inp = s.inp ∧ t.wCap = s.wCap ∧
      ((∀ w, .writeCmd w ∉ rest) → ∀ k u, run k t = .next u → u.outValid = false ∧ u.status = 0x00#8)) ∧
  (∀ (s s' : State) (o : Option CommandWord) (rest : List HostMove), s.Inv → s'.Inv → s.busy = true →
    s'.busy = true → s.host = .reset o :: rest → s'.host = .reset o :: rest → s.inp = s'.inp → s.wCap = s'.wCap →
    s.rdata = s'.rdata → s.draws = s'.draws →
    ∀ k, Indistinguishable (run (k + 1) s) (run (k + 1) s'))

/-- What 10_state.md gives for reset: `IDLE`, `ERR` 0, `STATUS` 0, `OUT` not valid, and an engine that waits, as it has
no step. -/
def Obligations.StateAfterReset : Prop :=
  State.reset.phase = .idle ∧ State.reset.err = .none ∧ State.reset.status = 0x00#8 ∧
    State.reset.outValid = false ∧ issued State.reset = none

/-! ## The operations: results and frames -/

/-- `COPYB` completes while `Q < NIN` and `W` has room: its pseudocode and next state; all else is unchanged. -/
def Obligations.CopybResult : Prop :=
  ∀ s : State, s.q < s.nin → s.wFits (s.len + 1) = true →
    exec .copyb s = .next { s with
      w := s.w.write s.len (s.inp.read s.q), len := s.len + 1,
      q := if s.q + 1 = s.nin then 0 else s.q + 1,
      phase := if s.q + 1 = s.nin then .pad else s.phase }

/-- `PADB` completes while `W` has room: its pseudocode and next state; all else is unchanged. -/
def Obligations.PadbResult : Prop :=
  ∀ s : State, s.wFits (s.len + 1) = true →
    exec .padb s = .next { s with
      w := s.w.write s.len (BitVec.ofNat 8 s.p), len := s.len + 1, q := s.q + 1,
      phase := if s.q + 1 = s.p then .cki else s.phase }

/-- `CKINIT` always completes: `C`, `L`, `I`, `K` are 0; all else is unchanged. -/
def Obligations.CkinitResult : Prop :=
  ∀ s : State, ∃ t, exec .ckinit s = .next t ∧ (∀ j, j < 16 → regRead t.c j = 0x00#8) ∧
    t = { s with c := t.c, l := 0x00#8, i := 0, k := 0, phase := .cks }

/-- `CKSTEP` completes for `K < 16` and an index inside `W`: `SUB(c XOR L)` is assigned to `C[K]` and to `L`, and the
counters move on; all else is unchanged. -/
def Obligations.CkstepResult : Prop :=
  ∀ s : State, s.k < 16 → s.wFits (16 * s.i + s.k + 1) = true →
    ∃ t, exec .ckstep s = .next t ∧
      t.l = sub (s.w.read (16 * s.i + s.k) ^^^ s.l) ∧
      regRead t.c s.k = t.l ∧ (∀ j, j ≠ s.k → regRead t.c j = regRead s.c j) ∧
      t = { s with
        c := t.c, l := t.l,
        k := if s.k < 15 then s.k + 1 else 0,
        i := if s.k < 15 then s.i else if 16 * (s.i + 1) < s.len then s.i + 1 else s.i,
        phase := if s.k < 15 then s.phase else if 16 * (s.i + 1) < s.len then s.phase else .cka }

/-- `CKAPP` completes while `W` has room for 16 bytes: they are `C[0..15]`, `C[0]` lowest; all else is unchanged. -/
def Obligations.CkappResult : Prop :=
  ∀ s : State, s.w.wf = true → s.wFits (s.len + 16) = true →
    ∃ t, exec .ckapp s = .next t ∧ (∀ j, j < 16 → t.w.read (s.len + j) = regRead s.c j) ∧
      (∀ a, a < s.len ∨ s.len + 16 ≤ a → t.w.read a = s.w.read a) ∧
      t = { s with w := t.w, len := s.len + 16, phase := .xi }

/-- `XINIT` always completes: `X`, `T`, `I` are 0; all else is unchanged. -/
def Obligations.XinitResult : Prop :=
  ∀ s : State, ∃ t, exec .xinit s = .next t ∧ (∀ k, k < 48 → regRead t.x k = 0x00#8) ∧
    t = { s with x := t.x, t := 0x00#8, i := 0, phase := .ldb }

/-- 43_compressor.md R74: `LDBLK`, selected by code 7, completes when block `I` lies inside `W`: the 16 lanes, `T`,
`R`, `K`; all else is unchanged. Of the old `X` only `X[0..15]` is read, and where they are 0 the exclusive-or is the
block. -/
def Obligations.LdblkResult : Prop :=
  decodeSelector 7#4 = .ok .ldblk ∧
  (∀ s : State, s.wFits (16 * s.i + 16) = true →
    ∃ t, exec .ldblk s = .next t ∧
      (∀ j, j < 16 →
        regRead t.x j = regRead s.x j ∧
        regRead t.x (16 + j) = s.w.read (16 * s.i + j) ∧
        regRead t.x (32 + j) = regRead s.x j ^^^ s.w.read (16 * s.i + j)) ∧
      t = { s with x := t.x, t := 0x00#8, r := 0, k := 0, phase := .mix }) ∧
  (∀ (s s' t t' : State), exec .ldblk s = .next t → exec .ldblk s' = .next t' → s.i = s'.i → s.w = s'.w →
    (∀ j, j < 16 → regRead s.x j = regRead s'.x j) → t.x = t'.x ∧ t.t = t'.t) ∧
  (∀ (s t : State), exec .ldblk s = .next t → (∀ j, j < 16 → regRead s.x j = 0x00#8) →
    ∀ j, j < 16 → regRead t.x (32 + j) = regRead t.x (16 + j))

/-- 43_compressor.md R75: `MIX`, selected by code 8, completes for `K < 48`: the new byte, from the old `X[K]` and the
old `T`, goes to `X[K]` and to `T`; all else is unchanged. With `T` and `X[K]` 0 the byte is 0x29; `X[K]` is
unchanged exactly when `T` is 0xDD. -/
def Obligations.MixResult : Prop :=
  decodeSelector 8#4 = .ok .mix ∧
  ∀ s : State, s.k < 48 →
    ∃ t, exec .mix s = .next t ∧
      t.t = regRead s.x s.k ^^^ sub s.t ∧ regRead t.x s.k = t.t ∧
      (∀ j, j ≠ s.k → regRead t.x j = regRead s.x j) ∧
      (s.t = 0x00#8 → regRead s.x s.k = 0x00#8 → t.t = 0x29#8) ∧
      (regRead t.x s.k = regRead s.x s.k ↔ s.t = 0xdd#8) ∧
      t = { s with
        x := t.x, t := t.t,
        k := if s.k < 47 then s.k + 1 else 0,
        phase := if s.k < 47 then s.phase else .radj }

/-- 43_compressor.md R76: `RADJ`, selected by code 9, always completes: `(T + R) mod 256`, and the next round, block
or phase; all else is unchanged. Round 0 leaves `T` as it was; after round 17 the result is dead, because neither
`LDBLK` nor `EXTRACT` reads it. -/
def Obligations.RadjResult : Prop :=
  decodeSelector 9#4 = .ok .radj ∧
  (∀ s : State, ∃ t, exec .radj s = .next t ∧ t.t.toNat = (s.t.toNat + s.r) % 256 ∧
    (s.r = 0 → t.t = s.t) ∧
    t = { s with
      t := t.t,
      r := if s.r < 17 then s.r + 1 else 0,
      i := if s.r < 17 then s.i else if 16 * (s.i + 1) < s.len then s.i + 1 else s.i,
      phase := if s.r < 17 then .mix else if 16 * (s.i + 1) < s.len then .ldb else .ext }) ∧
  (∀ (s t : State) (b : Byte), exec .ldblk s = .next t → exec .ldblk { s with t := b } = .next t) ∧
  (∀ (s t : State) (b : Byte), exec .extract s = .next t → ∃ t', exec .extract { s with t := b } = .next t' ∧
    t'.out = t.out)

/-- `EXTRACT` always completes: `OUT` is `X[0..15]` and valid, `STATUS.STATE` is 2; all else is unchanged. -/
def Obligations.ExtractResult : Prop :=
  ∀ s : State, ∃ t, exec .extract s = .next t ∧ (∀ j, j < 16 → regRead t.out j = regRead s.x j) ∧
    t.outValid = true ∧ t.status.extractLsb' 0 2 = 2#2 ∧
    t = { s with out := t.out, phase := .done }

/-- Which instruction writes which state (10_state.md, sections 2 to 7; 20_memory.md, section 1), over all
instructions: no instruction writes `IN`, the capacity or the host's own data. -/
def Obligations.OnlyTheListedWriters : Prop :=
  ∀ (i : Instr) (s t : State), exec i s = .next t →
    (t.x ≠ s.x → i = .xinit ∨ i = .ldblk ∨ i = .mix) ∧
    (t.t ≠ s.t → i = .xinit ∨ i = .ldblk ∨ i = .mix ∨ i = .radj) ∧
    (t.c ≠ s.c → i = .ckinit ∨ i = .ckstep) ∧
    (t.l ≠ s.l → i = .ckinit ∨ i = .ckstep) ∧
    (t.w ≠ s.w → i = .copyb ∨ i = .padb ∨ i = .ckapp) ∧
    (t.out ≠ s.out → i = .extract) ∧
    (t.nin ≠ s.nin ∨ t.p ≠ s.p ∨ t.err ≠ s.err → ∃ n, i = .digest n) ∧
    (t.len ≠ s.len → (∃ n, i = .digest n) ∨ i = .copyb ∨ i = .padb ∨ i = .ckapp) ∧
    (t.q ≠ s.q → (∃ n, i = .digest n) ∨ i = .copyb ∨ i = .padb) ∧
    (t.i ≠ s.i → i = .ckinit ∨ i = .ckstep ∨ i = .xinit ∨ i = .radj) ∧
    (t.r ≠ s.r → i = .ldblk ∨ i = .radj) ∧
    (t.k ≠ s.k → i = .ckinit ∨ i = .ckstep ∨ i = .ldblk ∨ i = .mix) ∧
    t.inp = s.inp ∧ t.wCap = s.wCap ∧ t.host = s.host ∧ t.rdata = s.rdata ∧ t.draws = s.draws

/-- The forms that store nothing leave every byte of `W` and of `IN` as it was. -/
def Obligations.NonStoringFormsKeepEveryByte : Prop :=
  ∀ (i : Instr) (s t : State), i ≠ .copyb → i ≠ .padb → i ≠ .ckapp → exec i s = .next t →
    ∀ a, t.w.read a = s.w.read a ∧ t.inp.read a = s.inp.read a

/-- The storing forms store at `LEN`: `COPYB` the byte `IN[Q]`, `PADB` the byte `P`, `CKAPP` the 16 bytes of `C`;
every other byte of `W` is as it was, and so is every byte of `IN`. -/
def Obligations.StoringFormsKeepOtherBytes : Prop :=
  ∀ s t : State, s.w.wf = true →
    (exec .copyb s = .next t →
      t.w.read s.len = s.inp.read s.q ∧ (∀ a, a ≠ s.len → t.w.read a = s.w.read a) ∧
      ∀ a, t.inp.read a = s.inp.read a) ∧
    (exec .padb s = .next t →
      t.w.read s.len = BitVec.ofNat 8 s.p ∧ (∀ a, a ≠ s.len → t.w.read a = s.w.read a) ∧
      ∀ a, t.inp.read a = s.inp.read a) ∧
    (exec .ckapp s = .next t →
      (∀ j, j < 16 → t.w.read (s.len + j) = regRead s.c j) ∧
      (∀ a, a < s.len ∨ s.len + 16 ≤ a → t.w.read a = s.w.read a) ∧
      ∀ a, t.inp.read a = s.inp.read a)

/-- Control flow depends on the control state and the latches only, never on a data byte (10_state.md, section 4):
two states that agree on them answer states that agree on them, whatever their data. -/
def Obligations.ControlIndependentOfData : Prop :=
  ∀ (i : Instr) (s t : State), SameControl s t →
    match exec i s, exec i t with
    | .next s', .next t' => SameControl s' t'
    | .fault f, .fault g => f = g
    | _, _ => False

/-! ## Invariants -/

/-- The invariant holds after reset. -/
def Obligations.InvariantAtReset : Prop := State.reset.Inv

/-- Every step keeps the invariant: the capacity is legal, both memories are canonical, `ERR` is nonzero exactly in
`FAULT`, and in every `BUSY` phase the latches are those of an accepted command and the counters stand where the
operation rules say. -/
def Obligations.EveryStepKeepsTheInvariant : Prop :=
  ∀ s t : State, s.Inv → step s = .next t → t.Inv

/-- 20_memory.md R31: in every state of the invariant, writes go to `LEN < NIN + P + 16 <= W_CAP`, reads to an index
below `LEN`, and no step ends in a fault of the model, which are its address faults. -/
def Obligations.EveryAccessInBounds : Prop :=
  ∀ s : State, s.Inv →
    (∀ f, step s ≠ .fault f) ∧
    (s.busy = true → ∀ cap, s.wCap = some cap → s.nin + s.p + 16 ≤ cap) ∧
    (s.phase = .copy ∨ s.phase = .pad → s.len < s.nin + s.p + 16) ∧
    (s.phase = .cka → s.len + 16 ≤ s.nin + s.p + 16) ∧
    (s.phase = .cks → 16 * s.i + s.k < s.len ∧ 16 * s.i + 15 < s.len) ∧
    (s.phase = .ldb → ∀ j, j < 16 → 16 * s.i + j < s.len)

/-- The counters' ranges and widths (10_state.md, section 3), in the phases that use them, and the length of `W` a
multiple of 16 after padding (section 7). -/
def Obligations.CountersStayInRange : Prop :=
  ∀ s : State, s.Inv → s.busy = true →
    s.nin < 2 ^ 56 ∧ 1 ≤ s.p ∧ s.p ≤ 16 ∧ s.len ≤ s.nin + 32 ∧ s.len < 2 ^ 57 ∧
    (s.phase = .copy → s.q ≤ s.nin) ∧ (s.phase = .pad → s.q ≤ s.p) ∧
    (s.phase ≠ .copy → s.phase ≠ .pad → s.len % 16 = 0) ∧
    (s.phase = .cks ∨ s.phase = .ldb ∨ s.phase = .mix ∨ s.phase = .radj →
      s.i ≤ s.len / 16 - 1 ∧ s.i < 2 ^ 53) ∧
    (s.phase = .mix ∨ s.phase = .radj → s.r ≤ 17) ∧
    (s.phase = .cks → s.k ≤ 15) ∧ (s.phase = .mix → s.k ≤ 47)

/-- `W` grows only at its end and is never shrunk or overwritten within an invocation (10_state.md, section 7): an
engine step in `BUSY` keeps the bytes below the old `LEN` and those from the new `LEN` on. -/
def Obligations.WorkingBufferGrowsOnlyAtItsEnd : Prop :=
  ∀ s t : State, s.Inv → s.busy = true → s.host = [] → step s = .next t →
    s.len ≤ t.len ∧ ∀ a, a < s.len ∨ t.len ≤ a → t.w.read a = s.w.read a

/-! ## The host's side -/

/-- 10_state.md R19: the fields of `STATUS`, their reset values, that reading it changes nothing but what the host
holds, and that writing it is ignored. -/
def Obligations.StatusRegister : Prop :=
  State.reset.status = 0x00#8 ∧ ∀ s : State, s.Inv →
    (s.status.extractLsb' 0 2 = 0#2 ↔ s.phase.code = 0#4) ∧
    (s.status.extractLsb' 0 2 = 1#2 ↔ 1 ≤ s.phase.code.toNat ∧ s.phase.code.toNat ≤ 10) ∧
    (s.status.extractLsb' 0 2 = 2#2 ↔ s.phase.code = 11#4) ∧
    (s.status.extractLsb' 0 2 = 3#2 ↔ s.phase.code = 12#4) ∧
    (s.status.extractLsb' 2 2 = 0#2 ↔ s.err = .none) ∧
    (s.status.extractLsb' 2 2 = 1#2 ↔ s.err = .resourceExhausted) ∧
    (s.status.extractLsb' 2 2 = 2#2 ↔ s.err = .illegalCommand) ∧
    (s.status.extractLsb' 2 2 ≠ 0#2 ↔ s.status.extractLsb' 0 2 = 3#2) ∧
    s.status.extractLsb' 4 4 = 0#4 ∧
    (∀ rest, s.host = .read 0x08 1 :: rest → step s = .next { s with host := rest, rdata := [s.status] }) ∧
    (∀ b rest, s.host = .writeByte 0x08 b :: rest → step s = .next { s with host := rest })

/-- 10_state.md R20: a write to `CMD` is accepted in `IDLE`, `DONE` and `FAULT`, where it has the outcome of
44_digest_command.md R82 for the word's opcode and length, whichever of the three it is; in `BUSY` it has no effect at
all and is not queued. Reads of `CMD`, of any of its bytes, return 0. -/
def Obligations.CommandPort : Prop :=
  (∀ (s : State) (w : CommandWord) (rest : List HostMove), s.host = .writeCmd w :: rest →
    let n := w.toNat / 256
    let p := 16 - n % 16
    (s.phase = .idle ∨ s.phase = .done ∨ s.phase = .fault →
      (w.toNat % 256 ≠ 1 →
        step s = .next { s with host := rest, phase := .fault, err := .illegalCommand }) ∧
      (w.toNat % 256 = 1 → (∃ cap, s.wCap = some cap ∧ n + p + 16 > cap) →
        step s = .next { s with host := rest, phase := .fault, err := .resourceExhausted }) ∧
      (w.toNat % 256 = 1 → (∀ cap, s.wCap = some cap → n + p + 16 ≤ cap) →
        step s = .next { s with
          host := rest, err := .none, nin := n, p := p, len := 0, q := 0,
          phase := if n > 0 then .copy else .pad })) ∧
    (¬ (s.phase = .idle ∨ s.phase = .done ∨ s.phase = .fault) →
      s.busy = true ∧ step s = .next { s with host := rest })) ∧
  (∀ (s : State) (off n : Nat) (rest : List HostMove), off + n ≤ 8 → s.host = .read off n :: rest →
    step s = .next { s with host := rest, rdata := List.replicate n 0x00#8 })

/-- 44_digest_command.md R86: in `DONE` each byte of `OUT` reads as the digest byte, any number of times, and changes
nothing else; `OUT` stays until the next command or `RESET`; `STATUS` reads in any state. -/
def Obligations.OutputReadableInDone : Prop :=
  (∀ (s : State) (j : Nat) (rest : List HostMove), s.phase = .done → j < 16 → s.host = .read (0x10 + j) 1 :: rest →
    step s = .next { s with host := rest, rdata := [regRead s.out j] }) ∧
  (∀ (s : State) (rest : List HostMove), s.phase = .done → s.host = HostMove.rdout :: rest →
    step s = .next { s with host := rest, rdata := s.out.toList }) ∧
  (∀ (s : State) (rest : List HostMove), s.host = HostMove.rdstat :: rest →
    step s = .next { s with host := rest, rdata := [s.status] }) ∧
  (∀ s t : State, s.phase = .done → step s = .next t →
    (t.phase = .done ∧ t.out = s.out) ∨ (∃ w rest, s.host = .writeCmd w :: rest) ∨
    (∃ o rest, s.host = .reset o :: rest))

/-- The model's choice for a read of `OUT[j]` when it is not valid (93_implementation_defined.md U3, assumption 7):
a free byte, of which nothing is known, and no other effect. -/
def Obligations.InvalidOutputReadsAFreeByte : Prop :=
  ∀ (s : State) (j : Nat) (rest : List HostMove), s.phase ≠ .done → j < 16 → s.host = .read (0x10 + j) 1 :: rest →
    step s = .next { s with host := rest, rdata := [Config.freeByte s.draws], draws := s.draws + 1 }

/-- The offsets that are not `CMD`, `STATUS` or `OUT` reads (20_memory.md, section 5): reserved ones read 0, writes
there and to `OUT` are ignored; a piece of `CMD` and offsets from 0x20 on are refused (assumption 10). -/
def Obligations.OffsetsOfTheRegisterMap : Prop :=
  ∀ (s : State) (off : Nat) (b : Byte) (rest : List HostMove),
    (9 ≤ off → off < 16 → s.host = .read off 1 :: rest →
      step s = .next { s with host := rest, rdata := [0x00#8] }) ∧
    (8 ≤ off → off < 32 → s.host = .writeByte off b :: rest → step s = .next { s with host := rest }) ∧
    (off < 8 → s.host = .writeByte off b :: rest → step s = .refused (.splitCommandWrite off)) ∧
    (32 ≤ off → s.host = .writeByte off b :: rest → step s = .refused (.notAnEngineOffset off)) ∧
    (32 ≤ off → s.host = .read off 1 :: rest → step s = .refused (.notAnEngineOffset off))

/-- Only the host writes `IN`, and not while the engine is `BUSY`, where the model refuses the move
(93_implementation_defined.md U4, assumption 10); what it puts in place is what `IN` reads as. -/
def Obligations.OnlyTheHostWritesInput : Prop :=
  (∀ s t : State, step s = .next t → t.inp ≠ s.inp →
    s.busy = false ∧ ∃ bytes rest, s.host = .present bytes :: rest) ∧
  (∀ (s : State) (bytes : List Byte) (rest : List HostMove), s.host = .present bytes :: rest →
    (s.busy = true → step s = .refused .inputHeldWhileBusy) ∧
    (s.busy = false → ∃ t, step s = .next t ∧ t = { s with host := rest, inp := t.inp } ∧
      ∀ (j : Nat) (b : Byte), bytes[j]? = some b → t.inp.read j = b))

/-- 20_memory.md R37: the host has no path to `W`, `X`, `C`, `L`, `T`: no transaction of its own writes them, and what
it reads does not depend on them; the engine has no write path to `IN`. What `RESET` leaves in them is unspecified
(70_reset_and_hazards.md), so the first clause does not speak of it; that none of it shows is
`LeftoverStateIsNeverObservable`. -/
def Obligations.ProtectionIsStructural : Prop :=
  (∀ (s t : State) (m : HostMove) (rest : List HostMove), s.host = m :: rest → m ≠ .wait → (∀ o, m ≠ .reset o) →
    step s = .next t → t.w = s.w ∧ t.x = s.x ∧ t.c = s.c ∧ t.l = s.l ∧ t.t = s.t) ∧
  (∀ (s t : State) (off n : Nat), SamePublic s t →
    match hostRead off n s, hostRead off n t with
    | .ok (bs, _), .ok (bs', _) => bs = bs'
    | .error e, .error e' => e = e'
    | _, _ => False) ∧
  (∀ (i : Instr) (s t : State), exec i s = .next t → t.inp = s.inp)

/-! ## The functions -/

/-- 41_padder.md R62: the properties of `Pad`, and that the engine applies it exactly once per invocation: the
`COPY` and `PAD` phases of an accepted command execute `NIN x COPYB` and `P x PADB` and leave `Pad` of the input in
`W`, and from there on, to `DONE` and after it, no `COPYB` and no `PADB` is executed. -/
def Obligations.PaddingProperties : Prop :=
  (∀ m : List Byte, (padded m).length % 16 = 0 ∧ m.length < (padded m).length ∧
    ∀ len, len % 16 = 0 → m.length < len → (padded m).length ≤ len) ∧
  (∀ m : List Byte, (padded m).length = m.length + (16 - m.length % 16) ∧
    1 ≤ 16 - m.length % 16 ∧ 16 - m.length % 16 ≤ 16) ∧
  padded [] = List.replicate 16 0x10#8 ∧
  (∀ m : List Byte, padded (padded m) = padded m ++ List.replicate 16 0x10#8 ∧ padded (padded m) ≠ padded m) ∧
  Function.Injective padded ∧
  (∀ s : State, s.Inv → s.host = [] → s.len = 0 → s.q = 0 → s.phase = .copy ∨ s.phase = .pad ∧ s.nin = 0 →
    ∃ t, run (s.nin + s.p) s = .next t ∧ t.phase = .cki ∧ t.len = s.nin + s.p ∧
      t.w.readBytes 0 t.len = padded (s.inp.readBytes 0 s.nin) ∧
      trace (s.nin + s.p) s = traceLoad s.nin ++ tracePad s.p ∧
      ∀ k, ∀ item ∈ trace k t, item.1 ≠ .copyb ∧ item.1 ≠ .padb)

/-- 42_checksum.md R66: `Ck` is the run of the last block alone from the `L` that enters it, whatever the accumulator
held; `C[15]` is `L`; for one block it is the exclusive-or form, and for two blocks it need not be. -/
def Obligations.ChecksumProperties : Prop :=
  let xorForm (b : List Byte) : RegFile 16 × Byte :=
    (List.range b.length).foldl
      (fun acc idx =>
        let v := regRead acc.1 (idx % 16) ^^^ sub (b.getD idx 0x00#8 ^^^ acc.2)
        (regWrite acc.1 (idx % 16) v, v))
      (regZero 16, 0x00#8)
  (∀ (earlier last : List Byte) (c : RegFile 16), earlier.length % 16 = 0 → last.length = 16 →
    checksum (earlier ++ last) = (ckBlock last (c, (ckRun earlier).2) 0).1) ∧
  (∀ earlier earlier' last : List Byte, earlier.length % 16 = 0 → earlier'.length % 16 = 0 → last.length = 16 →
    (ckRun earlier).2 = (ckRun earlier').2 → checksum (earlier ++ last) = checksum (earlier' ++ last)) ∧
  (∀ b : List Byte, b.length % 16 = 0 → 0 < b.length → regRead (checksum b) 15 = (ckRun b).2) ∧
  (∀ b : List Byte, b.length = 16 → checksum b = (xorForm b).1) ∧
  (∃ b : List Byte, b.length = 32 ∧ checksum b ≠ (xorForm b).1)

/-- Only `X[0..15]` links one block of `Comp` to the next (43_compressor.md, section 1): a block's result does not
depend on the rest of `X`, and no other block of the buffer enters it. -/
def Obligations.OnlySixteenBytesLinkBlocks : Prop :=
  ∀ (b b' : List Byte) (x x' : RegFile 48) (i : Nat), (∀ k, k < 16 → regRead x k = regRead x' k) →
    (∀ j, j < 16 → b.getD (16 * i + j) 0x00#8 = b'.getD (16 * i + j) 0x00#8) →
    compBlock b x i = compBlock b' x' i

/-- The known-answer vectors of the source (95_test_vectors.md V1 to V4). -/
def Obligations.KnownAnswerVectors : Prop :=
  digest [] =
    #v[0x83#8, 0x50#8, 0xe5#8, 0xa3#8, 0xe2#8, 0x4c#8, 0x15#8, 0x3d#8,
      0xf2#8, 0x27#8, 0x5c#8, 0x9f#8, 0x80#8, 0x69#8, 0x27#8, 0x73#8] ∧
  digest [0x61#8] =
    #v[0x32#8, 0xec#8, 0x01#8, 0xec#8, 0x4a#8, 0x6d#8, 0xac#8, 0x72#8,
      0xc0#8, 0xab#8, 0x96#8, 0xfb#8, 0x34#8, 0xc0#8, 0xb5#8, 0xd1#8] ∧
  digest [0x61#8, 0x62#8, 0x63#8] =
    #v[0xda#8, 0x85#8, 0x3b#8, 0x0d#8, 0x3f#8, 0x88#8, 0xd9#8, 0x9b#8,
      0x30#8, 0x28#8, 0x3a#8, 0x69#8, 0xe6#8, 0xde#8, 0xd6#8, 0xbb#8] ∧
  digest [0x6d#8, 0x65#8, 0x73#8, 0x73#8, 0x61#8, 0x67#8, 0x65#8, 0x20#8, 0x64#8, 0x69#8, 0x67#8, 0x65#8, 0x73#8,
      0x74#8] =
    #v[0xab#8, 0x4f#8, 0x49#8, 0x6b#8, 0xfb#8, 0x2a#8, 0x53#8, 0x0b#8,
      0x21#8, 0x9f#8, 0xf3#8, 0x30#8, 0x31#8, 0xfe#8, 0x06#8, 0xb0#8]

/-- `Hex` (44_digest_command.md, section 3): 32 lower-case digits, byte 0 first, the high nibble of each byte first. -/
def Obligations.HexRendering : Prop :=
  ∀ d : RegFile 16, (hex d).length = 32 ∧ (∀ ch ∈ hex d, ch ∈ "0123456789abcdef".toList) ∧
    ∀ j, j < 16 →
      (hex d)[2 * j]? = "0123456789abcdef".toList[(regRead d j).toNat / 16]? ∧
      (hex d)[2 * j + 1]? = "0123456789abcdef".toList[(regRead d j).toNat % 16]?

/-! ## Whole runs -/

/-- The checksum stage computes `Ck` of `W` and appends it (42_checksum.md, sections 1 and 2). -/
def Obligations.ChecksumStageComputesCk : Prop :=
  ∀ s : State, s.Inv → s.host = [] → s.phase = .cki →
    ∃ t, run (s.len + 2) s = .next t ∧ t.phase = .xi ∧ t.len = s.len + 16 ∧
      t.w.readBytes 0 t.len = s.w.readBytes 0 s.len ++ (checksum (s.w.readBytes 0 s.len)).toList

/-- The compressor stage computes `Comp` of `W` (43_compressor.md, sections 1 and 2). -/
def Obligations.CompressorStageComputesComp : Prop :=
  ∀ s : State, s.Inv → s.host = [] → s.phase = .xi →
    ∃ t, run (883 * (s.len / 16) + 2) s = .next t ∧ t.phase = .done ∧ t.w = s.w ∧
      t.out = compress (s.w.readBytes 0 s.len)

/-- 43_compressor.md R78: the first 16 `MIX` steps of the first block do not depend on the input; position 16 is the
first that does. -/
def Obligations.FirstSixteenMixesIgnoreTheInput : Prop :=
  ∀ s : State, s.host = [] → s.phase = .xi → s.wFits 16 = true →
    ∃ t, run 18 s = .next t ∧ t.phase = .mix ∧ t.i = 0 ∧ t.r = 0 ∧ t.k = 16 ∧
      (∀ k, k < 16 → regRead t.x k = sub^[k + 1] 0x00#8) ∧
      (List.range 16).map (regRead t.x) =
        [0x29#8, 0x42#8, 0x79#8, 0xfc#8, 0x9f#8, 0x0f#8, 0x13#8, 0xf3#8, 0xb4#8, 0x85#8, 0x71#8, 0xb8#8, 0xd3#8,
          0x8b#8, 0x65#8, 0xa5#8] ∧
      ∃ u, step t = .next u ∧ regRead u.x 16 = s.w.read 0 ^^^ sub 0xa5#8

/-- 00_scope.md R9: running the operations of a `DIGEST n` command from its write to `DONE` leaves the digest of the
input in `OUT`; the input is untouched, and `W` holds the padded input and its checksum block (20_memory.md R30). The
host may poll `STATUS`, read any other register and have commands dropped while the engine runs, and go on with any
moves (`rest`) once it is in `DONE`. -/
def Obligations.DigestCommandComputesDigest : Prop :=
  ∀ (s : State) (n : Nat) (moves rest : List HostMove), s.Inv → s.busy = false → n < 2 ^ 56 →
    s.host = HostMove.digest n :: (moves ++ rest) → Undisturbed (stepCount n) moves rest →
    (∀ cap, s.wCap = some cap → n + (16 - n % 16) + 16 ≤ cap) →
    ∃ t, run (1 + runLength (stepCount n) moves) s = .next t ∧ t.status = 0x02#8 ∧ t.host = rest ∧
      t.out = digest (s.inp.readBytes 0 n) ∧ t.inp = s.inp ∧
      t.len = n + (16 - n % 16) + 16 ∧
      t.w.readBytes 0 t.len =
        padded (s.inp.readBytes 0 n) ++ (checksum (padded (s.inp.readBytes 0 n))).toList

/-- 44_digest_command.md R83: the operations of an accepted `DIGEST n`, with their counters, are exactly the listed
sequence, which only `n` determines, not the data and not what the host reads or writes meanwhile; its length is the
step count. After it the engine is in `DONE` and has no step, so that without further moves nothing is added. -/
def Obligations.OperationSequence : Prop :=
  ∀ (s t : State) (n : Nat) (moves rest : List HostMove), s.busy = false → n < 2 ^ 56 →
    s.host = HostMove.digest n :: (moves ++ rest) → Undisturbed (stepCount n) moves rest →
    (∀ cap, s.wCap = some cap → n + (16 - n % 16) + 16 ≤ cap) → step s = .next t →
    trace (runLength (stepCount n) moves) t = traceDigest n ∧ (traceDigest n).length = stepCount n ∧
      (∃ u, run (runLength (stepCount n) moves) t = .next u ∧ u.phase = .done ∧ u.host = rest ∧ issued u = none) ∧
      (rest = [] → ∀ k, trace (runLength (stepCount n) moves + k) t = traceDigest n)

/-- 70_reset_and_hazards.md R118: how many of each operation the engine executes for an accepted `DIGEST n`, whatever
the host reads or writes meanwhile, and the totals R118 works out. -/
def Obligations.OperationCounts : Prop :=
  ∀ (s t : State) (n : Nat) (moves rest : List HostMove), s.busy = false → n < 2 ^ 56 →
    s.host = HostMove.digest n :: (moves ++ rest) → Undisturbed (stepCount n) moves rest →
    (∀ cap, s.wCap = some cap → n + (16 - n % 16) + 16 ≤ cap) → step s = .next t →
    let ops := trace (runLength (stepCount n) moves) t
    let count (i : Instr) := ops.countP fun item => item.1 = i
    let nb := (n + (16 - n % 16)) / 16
    count .copyb = n ∧ count .padb = 16 - n % 16 ∧ count .ckinit = 1 ∧ count .ckstep = 16 * nb ∧
      count .ckapp = 1 ∧ count .xinit = 1 ∧ count .ldblk = nb + 1 ∧ count .mix = 864 * (nb + 1) ∧
      count .radj = 18 * (nb + 1) ∧ count .extract = 1 ∧
      count .ckstep + count .mix = 16 * nb + 864 * (nb + 1) ∧
      ops.length = n + (16 - n % 16) + 16 * nb + 883 * (nb + 1) + 4 ∧
      (n ≤ 15 → n + (16 - n % 16) = 16 ∧ nb = 1 ∧ count .ckstep = 16 ∧ count .mix = 1728 ∧ count .radj = 36 ∧
        ops.length = 1802) ∧
      (n = 16 → nb = 2 ∧ ops.length = 2717)

/-- 70_reset_and_hazards.md R119: in every `BUSY` state of the invariant exactly one engine step is enabled and needs
nothing from the host, and `DONE` is reached after a number of engine steps that is within the step count of the
command and that no reading, dropped command or ignored write of the host changes. -/
def Obligations.BusyEngineReachesDone : Prop :=
  ∀ s : State, s.Inv → s.busy = true →
    (∃! i, issued s = some i) ∧ (∃ t, engineStep s = .next t ∧ t.host = s.host) ∧
    ∃ k, 0 < k ∧ k ≤ stepCount s.nin ∧ ∀ moves rest, Undisturbed k moves rest →
      ∃ t, run (runLength k moves) { s with host := moves ++ rest } = .next t ∧ t.phase = .done ∧ t.host = rest

/-- 10_state.md R25: no value of the private state from before a command can be observed: from two states that are
not `BUSY` and differ only in the private state and in an `OUT` that is not valid, the host sees the same for any
number of steps of any moves. -/
def Obligations.LeftoverStateIsNeverObservable : Prop :=
  ∀ s t : State, s.Inv → t.Inv → s.busy = false → SamePublic s t →
    ∀ k, Indistinguishable (run k s) (run k t)

/-- Engines are independent (60_exceptions.md, section 7): a step of one leaves every other as it was, does to its own
engine what that engine's state alone says, and steps of two engines can be taken in either order. -/
def Obligations.EnginesAreIndependent : Prop :=
  (∀ (sys sys' : System) (e : Nat), System.stepAt e sys = .next sys' →
    sys'.length = sys.length ∧ (∀ e', e' ≠ e → sys'[e']? = sys[e']?) ∧
    ∀ s, sys[e]? = some s → ∃ t, step s = .next t ∧ sys'[e]? = some t) ∧
  (∀ (sys sys₁ sys₂ : System) (e e' : Nat), e ≠ e' →
    System.stepAt e sys = .next sys₁ → System.stepAt e' sys₁ = .next sys₂ →
    ∃ sys₃, System.stepAt e' sys = .next sys₃ ∧ System.stepAt e sys₃ = .next sys₂) ∧
  ∀ n : Nat, ∀ s ∈ System.reset n, s.phase = .idle
end

