-- ==== Sys2Proof/Laws/Memory.lean ====
section
/-! SUPPORT. What memory reads after a write, and that every memory operation keeps the canonical form. -/

namespace Sys2Proof.Machine

theorem Memory.wfFrom_weaken {m : Memory} {lo lo' : Nat} (hle : lo' ≤ lo) (h : Memory.wfFrom lo m = true) :
    Memory.wfFrom lo' m = true := by
  cases m with
  | nil => rfl
  | cons cell m =>
    simp only [Memory.wfFrom, Bool.and_eq_true, decide_eq_true_eq] at h ⊢
    exact ⟨⟨hle.trans h.1.1, h.1.2⟩, h.2⟩

theorem Memory.read_below {m : Memory} {lo a : Nat} (h : Memory.wfFrom lo m = true) (ha : a < lo) :
    m.read a = Memory.unlisted := by
  induction m generalizing lo with
  | nil => rfl
  | cons cell m ih =>
    simp only [Memory.wfFrom, Bool.and_eq_true, decide_eq_true_eq] at h
    rw [Memory.read, if_neg (by omega)]
    exact ih h.2 (by omega)

theorem Memory.read_write_ne (m : Memory) {a a' : Nat} (b : Byte) (h : a' ≠ a) :
    (m.write a b).read a' = m.read a' := by
  induction m with
  | nil => by_cases hb : b = Memory.unlisted <;> simp [Memory.write, Memory.read, hb, h.symm]
  | cons cell m ih =>
    obtain ⟨a₀, b₀⟩ := cell
    unfold Memory.write
    split_ifs with h₁ h₂ h₃ h₄
    · simp only [Memory.read, ih]
    · simp [Memory.read, h₂, h.symm]
    · simp [Memory.read, h₂, h.symm]
    · rfl
    · simp [Memory.read, h.symm]

theorem Memory.read_write_same_from {m : Memory} {lo : Nat} (h : Memory.wfFrom lo m = true) (a : Nat) (b : Byte) :
    (m.write a b).read a = b := by
  induction m generalizing lo with
  | nil => by_cases hb : b = Memory.unlisted <;> simp [Memory.write, Memory.read, hb]
  | cons cell m ih =>
    obtain ⟨a₀, b₀⟩ := cell
    simp only [Memory.wfFrom, Bool.and_eq_true, decide_eq_true_eq] at h
    unfold Memory.write
    split_ifs with h₁ h₂ h₃ h₄
    · rw [Memory.read, if_neg (by omega)]
      exact ih h.2
    · rw [h₃]
      exact Memory.read_below h.2 (by omega)
    · simp [Memory.read]
    · rw [h₄, Memory.read, if_neg h₂]
      exact Memory.read_below h.2 (by omega)
    · simp [Memory.read]

/-- A read after a write to the same index gives the byte written. -/
theorem Memory.read_write_same {m : Memory} (h : m.wf = true) (a : Nat) (b : Byte) : (m.write a b).read a = b :=
  Memory.read_write_same_from h a b

theorem Memory.wfFrom_write {m : Memory} {lo a : Nat} (h : Memory.wfFrom lo m = true) (ha : lo ≤ a) (b : Byte) :
    Memory.wfFrom lo (m.write a b) = true := by
  induction m generalizing lo with
  | nil => by_cases hb : b = Memory.unlisted <;> simp [Memory.write, Memory.wfFrom, hb, ha]
  | cons cell m ih =>
    obtain ⟨a₀, b₀⟩ := cell
    simp only [Memory.wfFrom, Bool.and_eq_true, decide_eq_true_eq] at h
    unfold Memory.write
    split_ifs with h₁ h₂ h₃ h₄
    · simp [Memory.wfFrom, h.1.1, h.1.2, ih h.2 (by omega : a₀ + 1 ≤ a)]
    · exact Memory.wfFrom_weaken (by omega) h.2
    · subst h₂
      simp [Memory.wfFrom, ha, h₃, h.2]
    · simp [Memory.wfFrom, h.1.1, h.1.2, h.2]
    · simp [Memory.wfFrom, ha, h₄, h.1.2, h.2, (by omega : a + 1 ≤ a₀)]

/-- A write keeps the canonical form. -/
theorem Memory.wf_write {m : Memory} (h : m.wf = true) (a : Nat) (b : Byte) : (m.write a b).wf = true :=
  Memory.wfFrom_write h (Nat.zero_le a) b

/-- A run of writes keeps the canonical form. -/
theorem Memory.wf_writeBytes {m : Memory} (h : m.wf = true) (a : Nat) (bs : List Byte) :
    (m.writeBytes a bs).wf = true := by
  induction bs generalizing m a with
  | nil => exact h
  | cons b bs ih => exact ih (Memory.wf_write h a b) (a + 1)

/-- A memory built from bytes is in canonical form. -/
theorem Memory.wf_ofBytes (bs : List Byte) : (Memory.ofBytes bs).wf = true :=
  Memory.wf_writeBytes (m := []) rfl 0 bs

/-- A run of writes leaves every index outside it alone. -/
theorem Memory.read_writeBytes_outside (m : Memory) {a a' : Nat} (bs : List Byte)
    (h : a' < a ∨ a + bs.length ≤ a') : (m.writeBytes a bs).read a' = m.read a' := by
  induction bs generalizing m a with
  | nil => rfl
  | cons b bs ih =>
    rw [List.length_cons] at h
    rw [Memory.writeBytes, ih (m.write a b) (by omega), Memory.read_write_ne m b (by omega)]

/-- Inside a run of writes each index reads the byte written to it. -/
theorem Memory.read_writeBytes_inside {m : Memory} (h : m.wf = true) (a : Nat) (bs : List Byte) {j : Nat}
    (hj : j < bs.length) : (m.writeBytes a bs).read (a + j) = bs[j] := by
  induction bs generalizing m a j with
  | nil => simp at hj
  | cons b bs ih =>
    rw [Memory.writeBytes]
    cases j with
    | zero =>
      rw [Memory.read_writeBytes_outside _ _ (by omega), Nat.add_zero]
      exact Memory.read_write_same h a b
    | succ j =>
      rw [show a + (j + 1) = a + 1 + j by omega]
      exact ih (Memory.wf_write h a b) (a + 1) (by simpa using hj)

theorem Memory.ext_from {m m' : Memory} {lo lo' : Nat} (h : Memory.wfFrom lo m = true)
    (h' : Memory.wfFrom lo' m' = true) (hr : ∀ a, m.read a = m'.read a) : m = m' := by
  induction m generalizing m' lo lo' with
  | nil =>
    cases m' with
    | nil => rfl
    | cons cell m' =>
      simp only [Memory.wfFrom, Bool.and_eq_true, decide_eq_true_eq] at h'
      exact absurd (by simpa [Memory.read] using (hr cell.1).symm) h'.1.2
  | cons cell m ih =>
    obtain ⟨a, b⟩ := cell
    simp only [Memory.wfFrom, Bool.and_eq_true, decide_eq_true_eq] at h
    cases m' with
    | nil => exact absurd (by simpa [Memory.read] using hr a) h.1.2
    | cons cell' m' =>
      obtain ⟨a', b'⟩ := cell'
      simp only [Memory.wfFrom, Bool.and_eq_true, decide_eq_true_eq] at h'
      have haa : a = a' := by
        rcases lt_trichotomy a a' with hlt | heq | hgt
        · have := hr a
          rw [Memory.read, if_pos rfl, Memory.read, if_neg (by omega), Memory.read_below h'.2 (by omega)] at this
          exact absurd this h.1.2
        · exact heq
        · have := hr a'
          rw [Memory.read, if_neg (by omega), Memory.read_below h.2 (by omega), Memory.read, if_pos rfl] at this
          exact absurd this.symm h'.1.2
      subst haa
      have hb : b = b' := by simpa [Memory.read] using hr a
      subst hb
      congr 1
      refine ih h.2 h'.2 fun a₁ => ?_
      by_cases h₁ : a = a₁
      · subst h₁
        rw [Memory.read_below h.2 (by omega), Memory.read_below h'.2 (by omega)]
      · simpa [Memory.read, h₁] using hr a₁

/-- Canonical memories that read the same everywhere are the same data. -/
theorem Memory.ext_of_wf {m m' : Memory} (h : m.wf = true) (h' : m'.wf = true)
    (hr : ∀ a, m.read a = m'.read a) : m = m' :=
  Memory.ext_from h h' hr

@[simp] theorem Memory.readBytes_length (m : Memory) (a n : Nat) : (m.readBytes a n).length = n := by
  simp [Memory.readBytes]

theorem Memory.readBytes_getD (m : Memory) (a : Nat) {n j : Nat} (h : j < n) :
    (m.readBytes a n).getD j 0x00#8 = m.read (a + j) := by
  simp [Memory.readBytes, List.getD, h]

/-- A read of memory built from bytes gives the byte at that position, or the unlisted byte beyond the last. -/
theorem Memory.read_ofBytes (bs : List Byte) (a : Nat) :
    (Memory.ofBytes bs).read a = bs.getD a Memory.unlisted := by
  by_cases h : a < bs.length
  · have := Memory.read_writeBytes_inside (m := []) rfl 0 bs h
    rw [Nat.zero_add] at this
    rw [Memory.ofBytes, this, List.getD_eq_getElem _ _ h]
  · rw [Memory.ofBytes, Memory.read_writeBytes_outside _ _ (by omega)]
    simp [Memory.read, List.getD, Nat.le_of_not_lt h]

end Sys2Proof.Machine
end

