-- ==== Sys2Proof/Laws/State.lean ====
section
/-! SUPPORT. One lemma per field for each named update of the state (Machine/Ops.lean), all true by definition. -/

namespace Sys2Proof.Machine

@[simp] theorem raiseError_phase (e : Err) (s : State) : (raiseError e s).phase = .fault := rfl
@[simp] theorem raiseError_err (e : Err) (s : State) : (raiseError e s).err = e := rfl
@[simp] theorem raiseError_x (e : Err) (s : State) : (raiseError e s).x = s.x := rfl
@[simp] theorem raiseError_t (e : Err) (s : State) : (raiseError e s).t = s.t := rfl
@[simp] theorem raiseError_c (e : Err) (s : State) : (raiseError e s).c = s.c := rfl
@[simp] theorem raiseError_l (e : Err) (s : State) : (raiseError e s).l = s.l := rfl
@[simp] theorem raiseError_nin (e : Err) (s : State) : (raiseError e s).nin = s.nin := rfl
@[simp] theorem raiseError_p (e : Err) (s : State) : (raiseError e s).p = s.p := rfl
@[simp] theorem raiseError_len (e : Err) (s : State) : (raiseError e s).len = s.len := rfl
@[simp] theorem raiseError_q (e : Err) (s : State) : (raiseError e s).q = s.q := rfl
@[simp] theorem raiseError_i (e : Err) (s : State) : (raiseError e s).i = s.i := rfl
@[simp] theorem raiseError_r (e : Err) (s : State) : (raiseError e s).r = s.r := rfl
@[simp] theorem raiseError_k (e : Err) (s : State) : (raiseError e s).k = s.k := rfl
@[simp] theorem raiseError_w (e : Err) (s : State) : (raiseError e s).w = s.w := rfl
@[simp] theorem raiseError_out (e : Err) (s : State) : (raiseError e s).out = s.out := rfl
@[simp] theorem raiseError_inp (e : Err) (s : State) : (raiseError e s).inp = s.inp := rfl
@[simp] theorem raiseError_wCap (e : Err) (s : State) : (raiseError e s).wCap = s.wCap := rfl
@[simp] theorem raiseError_host (e : Err) (s : State) : (raiseError e s).host = s.host := rfl
@[simp] theorem raiseError_rdata (e : Err) (s : State) : (raiseError e s).rdata = s.rdata := rfl
@[simp] theorem raiseError_draws (e : Err) (s : State) : (raiseError e s).draws = s.draws := rfl

@[simp] theorem clearError_phase (s : State) : (clearError s).phase = s.phase := rfl
@[simp] theorem clearError_err (s : State) : (clearError s).err = .none := rfl
@[simp] theorem clearError_x (s : State) : (clearError s).x = s.x := rfl
@[simp] theorem clearError_t (s : State) : (clearError s).t = s.t := rfl
@[simp] theorem clearError_c (s : State) : (clearError s).c = s.c := rfl
@[simp] theorem clearError_l (s : State) : (clearError s).l = s.l := rfl
@[simp] theorem clearError_nin (s : State) : (clearError s).nin = s.nin := rfl
@[simp] theorem clearError_p (s : State) : (clearError s).p = s.p := rfl
@[simp] theorem clearError_len (s : State) : (clearError s).len = s.len := rfl
@[simp] theorem clearError_q (s : State) : (clearError s).q = s.q := rfl
@[simp] theorem clearError_i (s : State) : (clearError s).i = s.i := rfl
@[simp] theorem clearError_r (s : State) : (clearError s).r = s.r := rfl
@[simp] theorem clearError_k (s : State) : (clearError s).k = s.k := rfl
@[simp] theorem clearError_w (s : State) : (clearError s).w = s.w := rfl
@[simp] theorem clearError_out (s : State) : (clearError s).out = s.out := rfl
@[simp] theorem clearError_inp (s : State) : (clearError s).inp = s.inp := rfl
@[simp] theorem clearError_wCap (s : State) : (clearError s).wCap = s.wCap := rfl
@[simp] theorem clearError_host (s : State) : (clearError s).host = s.host := rfl
@[simp] theorem clearError_rdata (s : State) : (clearError s).rdata = s.rdata := rfl
@[simp] theorem clearError_draws (s : State) : (clearError s).draws = s.draws := rfl

@[simp] theorem resetEvent_phase (s : State) : (resetEvent s).phase = .idle := rfl
@[simp] theorem resetEvent_err (s : State) : (resetEvent s).err = .none := rfl
@[simp] theorem resetEvent_x (s : State) : (resetEvent s).x = s.x := rfl
@[simp] theorem resetEvent_t (s : State) : (resetEvent s).t = s.t := rfl
@[simp] theorem resetEvent_c (s : State) : (resetEvent s).c = s.c := rfl
@[simp] theorem resetEvent_l (s : State) : (resetEvent s).l = s.l := rfl
@[simp] theorem resetEvent_nin (s : State) : (resetEvent s).nin = s.nin := rfl
@[simp] theorem resetEvent_p (s : State) : (resetEvent s).p = s.p := rfl
@[simp] theorem resetEvent_len (s : State) : (resetEvent s).len = s.len := rfl
@[simp] theorem resetEvent_q (s : State) : (resetEvent s).q = s.q := rfl
@[simp] theorem resetEvent_i (s : State) : (resetEvent s).i = s.i := rfl
@[simp] theorem resetEvent_r (s : State) : (resetEvent s).r = s.r := rfl
@[simp] theorem resetEvent_k (s : State) : (resetEvent s).k = s.k := rfl
@[simp] theorem resetEvent_w (s : State) : (resetEvent s).w = s.w := rfl
@[simp] theorem resetEvent_out (s : State) : (resetEvent s).out = s.out := rfl
@[simp] theorem resetEvent_inp (s : State) : (resetEvent s).inp = s.inp := rfl
@[simp] theorem resetEvent_wCap (s : State) : (resetEvent s).wCap = s.wCap := rfl
@[simp] theorem resetEvent_host (s : State) : (resetEvent s).host = s.host := rfl
@[simp] theorem resetEvent_rdata (s : State) : (resetEvent s).rdata = s.rdata := rfl
@[simp] theorem resetEvent_draws (s : State) : (resetEvent s).draws = s.draws := rfl

@[simp] theorem startInvocation_phase (n : Nat) (s : State) : (startInvocation n s).phase = if n > 0 then .copy else .pad := rfl
@[simp] theorem startInvocation_err (n : Nat) (s : State) : (startInvocation n s).err = s.err := rfl
@[simp] theorem startInvocation_x (n : Nat) (s : State) : (startInvocation n s).x = s.x := rfl
@[simp] theorem startInvocation_t (n : Nat) (s : State) : (startInvocation n s).t = s.t := rfl
@[simp] theorem startInvocation_c (n : Nat) (s : State) : (startInvocation n s).c = s.c := rfl
@[simp] theorem startInvocation_l (n : Nat) (s : State) : (startInvocation n s).l = s.l := rfl
@[simp] theorem startInvocation_nin (n : Nat) (s : State) : (startInvocation n s).nin = n := rfl
@[simp] theorem startInvocation_p (n : Nat) (s : State) : (startInvocation n s).p = padCount n := rfl
@[simp] theorem startInvocation_len (n : Nat) (s : State) : (startInvocation n s).len = 0 := rfl
@[simp] theorem startInvocation_q (n : Nat) (s : State) : (startInvocation n s).q = 0 := rfl
@[simp] theorem startInvocation_i (n : Nat) (s : State) : (startInvocation n s).i = s.i := rfl
@[simp] theorem startInvocation_r (n : Nat) (s : State) : (startInvocation n s).r = s.r := rfl
@[simp] theorem startInvocation_k (n : Nat) (s : State) : (startInvocation n s).k = s.k := rfl
@[simp] theorem startInvocation_w (n : Nat) (s : State) : (startInvocation n s).w = s.w := rfl
@[simp] theorem startInvocation_out (n : Nat) (s : State) : (startInvocation n s).out = s.out := rfl
@[simp] theorem startInvocation_inp (n : Nat) (s : State) : (startInvocation n s).inp = s.inp := rfl
@[simp] theorem startInvocation_wCap (n : Nat) (s : State) : (startInvocation n s).wCap = s.wCap := rfl
@[simp] theorem startInvocation_host (n : Nat) (s : State) : (startInvocation n s).host = s.host := rfl
@[simp] theorem startInvocation_rdata (n : Nat) (s : State) : (startInvocation n s).rdata = s.rdata := rfl
@[simp] theorem startInvocation_draws (n : Nat) (s : State) : (startInvocation n s).draws = s.draws := rfl

@[simp] theorem drawByte_phase (s : State) : ((drawByte s).2).phase = s.phase := rfl
@[simp] theorem drawByte_err (s : State) : ((drawByte s).2).err = s.err := rfl
@[simp] theorem drawByte_x (s : State) : ((drawByte s).2).x = s.x := rfl
@[simp] theorem drawByte_t (s : State) : ((drawByte s).2).t = s.t := rfl
@[simp] theorem drawByte_c (s : State) : ((drawByte s).2).c = s.c := rfl
@[simp] theorem drawByte_l (s : State) : ((drawByte s).2).l = s.l := rfl
@[simp] theorem drawByte_nin (s : State) : ((drawByte s).2).nin = s.nin := rfl
@[simp] theorem drawByte_p (s : State) : ((drawByte s).2).p = s.p := rfl
@[simp] theorem drawByte_len (s : State) : ((drawByte s).2).len = s.len := rfl
@[simp] theorem drawByte_q (s : State) : ((drawByte s).2).q = s.q := rfl
@[simp] theorem drawByte_i (s : State) : ((drawByte s).2).i = s.i := rfl
@[simp] theorem drawByte_r (s : State) : ((drawByte s).2).r = s.r := rfl
@[simp] theorem drawByte_k (s : State) : ((drawByte s).2).k = s.k := rfl
@[simp] theorem drawByte_w (s : State) : ((drawByte s).2).w = s.w := rfl
@[simp] theorem drawByte_out (s : State) : ((drawByte s).2).out = s.out := rfl
@[simp] theorem drawByte_inp (s : State) : ((drawByte s).2).inp = s.inp := rfl
@[simp] theorem drawByte_wCap (s : State) : ((drawByte s).2).wCap = s.wCap := rfl
@[simp] theorem drawByte_host (s : State) : ((drawByte s).2).host = s.host := rfl
@[simp] theorem drawByte_rdata (s : State) : ((drawByte s).2).rdata = s.rdata := rfl
@[simp] theorem drawByte_draws (s : State) : ((drawByte s).2).draws = s.draws + 1 := rfl

end Sys2Proof.Machine
end

