-- ==== Sys2Proof/Laws/Ops.lean ====
section
/-! SUPPORT. What each shared operation can do, said once: register files, the byte spaces, acceptance, and the
inversion of the operations' meanings. -/

namespace Sys2Proof.Machine

/-! ## Register files -/

theorem regRead_eq_getElem {n : Nat} (v : RegFile n) {k : Nat} (h : k < n) : regRead v k = v[k] := by
  simp [regRead, List.getD, h]

theorem regRead_outside {n : Nat} (v : RegFile n) {k : Nat} (h : n ≤ k) : regRead v k = 0x00#8 := by
  simp [regRead, List.getD, h]

@[simp] theorem regRead_regBuild {n : Nat} (f : Nat → Byte) {k : Nat} (h : k < n) : regRead (regBuild n f) k = f k := by
  simp [regRead, regBuild, List.getD, h]

@[simp] theorem regRead_regZero (n k : Nat) : regRead (regZero n) k = 0x00#8 := by
  by_cases h : k < n <;> simp [regRead, regZero, List.getD, h]

theorem regRead_regWrite_same {n : Nat} (v : RegFile n) {k : Nat} (b : Byte) (h : k < n) :
    regRead (regWrite v k b) k = b := by
  rw [regRead_eq_getElem _ h]
  simp [regWrite]

theorem regRead_regWrite_ne {n : Nat} (v : RegFile n) {k k' : Nat} (b : Byte) (h : k' ≠ k) :
    regRead (regWrite v k b) k' = regRead v k' := by
  by_cases hk : k' < n
  · rw [regRead_eq_getElem _ hk, regRead_eq_getElem _ hk]
    simp [regWrite, h.symm]
  · rw [regRead_outside _ (by omega), regRead_outside _ (by omega)]

/-- Two register files with the same registers are the same. -/
theorem regFile_ext {n : Nat} {v v' : RegFile n} (h : ∀ k, k < n → regRead v k = regRead v' k) : v = v' := by
  apply Vector.ext
  intro k hk
  have := h k hk
  rwa [regRead_eq_getElem v hk, regRead_eq_getElem v' hk] at this

/-! ## The byte spaces -/

theorem wFits_mono {s : State} {m n : Nat} (hle : m ≤ n) (h : s.wFits n = true) : s.wFits m = true := by
  unfold State.wFits at h ⊢
  split at h
  · rfl
  · rw [decide_eq_true_eq] at h ⊢
    omega

theorem readIN_ok {s : State} {a : Nat} {b : Byte} (h : readIN s a = .ok b) : a < s.nin ∧ b = s.inp.read a := by
  unfold readIN at h
  split at h
  · exact ⟨‹_›, by simpa using h.symm⟩
  · simp at h

theorem readW_ok {s : State} {a n : Nat} {bs : List Byte} (h : readW s a n = .ok bs) :
    s.wFits (a + n) = true ∧ bs = s.w.readBytes a n := by
  unfold readW at h
  split at h
  · exact ⟨‹_›, by simpa using h.symm⟩
  · simp at h

theorem writeW_ok {s s' : State} {a : Nat} {bs : List Byte} (h : writeW s a bs = .ok s') :
    s.wFits (a + bs.length) = true ∧ s' = { s with w := s.w.writeBytes a bs } := by
  unfold writeW at h
  split at h
  · exact ⟨‹_›, by simpa using h.symm⟩
  · simp at h

/-! ## Acceptance -/

/-- Acceptance either takes the fault and writes only `PHASE` and `ERR`, or starts the invocation. -/
theorem acceptDigest_cases (n : Nat) (s : State) :
    (s.wFits (bufferNeed n) = true ∧ acceptDigest n s = startInvocation n (clearError s)) ∨
    (s.wFits (bufferNeed n) = false ∧ acceptDigest n s = raiseError .resourceExhausted (clearError s)) := by
  have hfit : (clearError s).wFits (bufferNeed n) = s.wFits (bufferNeed n) := rfl
  unfold acceptDigest
  rw [hfit]
  cases s.wFits (bufferNeed n) <;> simp

/-! ## The pad count -/

theorem padCount_pos (n : Nat) : 1 ≤ padCount n := by
  unfold padCount
  omega

theorem padCount_le (n : Nat) : padCount n ≤ 16 := by
  unfold padCount
  omega

theorem add_padCount (n : Nat) : n + padCount n = 16 * (n / 16 + 1) := by
  unfold padCount
  omega

/-! ## What an operation can do, if it answers a next state -/

theorem execDigest_next {n : Nat} {s s' : State} (h : execDigest n s = .next s') :
    s' = if s.busy then s else acceptDigest n s := by
  simpa [execDigest] using h.symm

theorem execCopyb_next {s s' : State} (h : execCopyb s = .next s') :
    s.q < s.nin ∧ s.wFits (s.len + 1) = true ∧
    ((s.q + 1 = s.nin ∧
        s' = { s with w := s.w.write s.len (s.inp.read s.q), len := s.len + 1, q := 0, phase := .pad }) ∨
     (s.q + 1 ≠ s.nin ∧
        s' = { s with w := s.w.write s.len (s.inp.read s.q), len := s.len + 1, q := s.q + 1 })) := by
  unfold execCopyb at h
  split at h
  · simp at h
  · rename_i b hb
    obtain ⟨hq, rfl⟩ := readIN_ok hb
    split at h
    · simp at h
    · rename_i s₁ hs
      obtain ⟨hfit, rfl⟩ := writeW_ok hs
      refine ⟨hq, hfit, ?_⟩
      split at h
      · exact .inl ⟨‹_›, by simpa [Memory.writeBytes] using h.symm⟩
      · exact .inr ⟨‹_›, by simpa [Memory.writeBytes] using h.symm⟩

theorem execPadb_next {s s' : State} (h : execPadb s = .next s') :
    s.wFits (s.len + 1) = true ∧
    ((s.q + 1 = s.p ∧
        s' = { s with w := s.w.write s.len (padByte s.p), len := s.len + 1, q := s.q + 1, phase := .cki }) ∨
     (s.q + 1 ≠ s.p ∧
        s' = { s with w := s.w.write s.len (padByte s.p), len := s.len + 1, q := s.q + 1 })) := by
  unfold execPadb at h
  split at h
  · simp at h
  · rename_i s₁ hs
    obtain ⟨hfit, rfl⟩ := writeW_ok hs
    refine ⟨hfit, ?_⟩
    split at h
    · exact .inl ⟨‹_›, by simpa [Memory.writeBytes] using h.symm⟩
    · exact .inr ⟨‹_›, by simpa [Memory.writeBytes] using h.symm⟩

theorem execCkstep_next {s s' : State} (h : execCkstep s = .next s') :
    s.k < 16 ∧ s.wFits (blockIndex s.i s.k + 1) = true ∧
    s' = nextCkstep { s with
      c := regWrite s.c s.k (sub (s.w.read (blockIndex s.i s.k) ^^^ s.l)),
      l := sub (s.w.read (blockIndex s.i s.k) ^^^ s.l) } := by
  unfold execCkstep at h
  split at h
  · simp at h
  · rename_i bs hb
    obtain ⟨hfit, rfl⟩ := readW_ok hb
    simp only [Memory.readBytes, List.range_one, List.map_cons, List.map_nil, List.headD_cons, Nat.add_zero] at h
    split at h
    · exact ⟨‹_›, hfit, by simpa using h.symm⟩
    · simp at h

theorem execCkapp_next {s s' : State} (h : execCkapp s = .next s') :
    s.wFits (s.len + 16) = true ∧
    s' = { s with w := s.w.writeBytes s.len s.c.toList, len := s.len + 16, phase := .xi } := by
  unfold execCkapp at h
  split at h
  · simp at h
  · rename_i s₁ hs
    obtain ⟨hfit, rfl⟩ := writeW_ok hs
    exact ⟨by simpa using hfit, by simpa using h.symm⟩

theorem execLdblk_next {s s' : State} (h : execLdblk s = .next s') :
    s.wFits (blockIndex s.i 0 + 16) = true ∧
    s' = { s with
      x := loadBlock s.x (s.w.readBytes (blockIndex s.i 0) 16), t := 0x00#8, r := 0, k := 0, phase := .mix } := by
  unfold execLdblk at h
  split at h
  · simp at h
  · rename_i bs hb
    obtain ⟨hfit, rfl⟩ := readW_ok hb
    exact ⟨hfit, by simpa using h.symm⟩

theorem execMix_next {s s' : State} (h : execMix s = .next s') :
    s.k < 48 ∧ s' = nextMix { s with
      t := regRead s.x s.k ^^^ sub s.t, x := regWrite s.x s.k (regRead s.x s.k ^^^ sub s.t) } := by
  unfold execMix at h
  split at h
  · exact ⟨‹_›, by simpa using h.symm⟩
  · simp at h

theorem execRadj_next {s s' : State} (h : execRadj s = .next s') :
    (s.r < 17 ∧ s' = { s with t := s.t + BitVec.ofNat 8 s.r, r := s.r + 1, phase := .mix }) ∨
    (17 ≤ s.r ∧ moreBlocks s.i s.len = true ∧
      s' = { s with t := s.t + BitVec.ofNat 8 s.r, r := 0, i := s.i + 1, phase := .ldb }) ∨
    (17 ≤ s.r ∧ moreBlocks s.i s.len = false ∧
      s' = { s with t := s.t + BitVec.ofNat 8 s.r, r := 0, phase := .ext }) := by
  unfold execRadj at h
  split_ifs at h with h₁ h₂
  · exact .inl ⟨h₁, by simpa using h.symm⟩
  · exact .inr (.inl ⟨by omega, h₂, by simpa using h.symm⟩)
  · exact .inr (.inr ⟨by omega, by simpa using h₂, by simpa using h.symm⟩)

/-- The three places `CKSTEP` can go. -/
theorem nextCkstep_cases (s : State) :
    (s.k < 15 ∧ nextCkstep s = { s with k := s.k + 1 }) ∨
    (15 ≤ s.k ∧ moreBlocks s.i s.len = true ∧ nextCkstep s = { s with k := 0, i := s.i + 1 }) ∨
    (15 ≤ s.k ∧ moreBlocks s.i s.len = false ∧ nextCkstep s = { s with k := 0, phase := .cka }) := by
  unfold nextCkstep
  split_ifs with h₁ h₂
  · exact .inl ⟨h₁, rfl⟩
  · exact .inr (.inl ⟨by omega, h₂, rfl⟩)
  · exact .inr (.inr ⟨by omega, by simpa using h₂, rfl⟩)

/-- The two places `MIX` can go. -/
theorem nextMix_cases (s : State) :
    (s.k < 47 ∧ nextMix s = { s with k := s.k + 1 }) ∨
    (47 ≤ s.k ∧ nextMix s = { s with k := 0, phase := .radj }) := by
  unfold nextMix
  split_ifs with h₁
  · exact .inl ⟨h₁, rfl⟩
  · exact .inr ⟨by omega, rfl⟩

end Sys2Proof.Machine
end

