-- ==== Sys2Proof/Laws/PerInstr.lean ====
section
/-! SUPPORT. Per instruction, as syntax: its code has the bits that its row of spec/opcode_table.json fixes. -/

namespace Sys2Proof.Laws.TableMatch

/-- The code of `i`, masked as its row of the table says, is the row's match value. -/
def Statement (i : Sys2Proof.Instr) : Prop :=
  Nat.land (Sys2Proof.encode i).number (Sys2Proof.tableRow i).mask = (Sys2Proof.tableRow i).bits

theorem digest (n : Nat) : Statement (.digest n) := by
  have h : Nat.land ((n * 256 + 1) % 2 ^ 64) (2 ^ 8 - 1) = 1 := by
    show ((n * 256 + 1) % 2 ^ 64) &&& (2 ^ 8 - 1) = 1
    rw [Nat.and_two_pow_sub_one_eq_mod]
    omega
  simpa [Statement, Sys2Proof.encode, Sys2Proof.Code.number, Sys2Proof.encodeDigest, Sys2Proof.tableRow] using h

theorem copyb : Statement .copyb := rfl
theorem padb : Statement .padb := rfl
theorem ckinit : Statement .ckinit := rfl
theorem ckstep : Statement .ckstep := rfl
theorem ckapp : Statement .ckapp := rfl
theorem xinit : Statement .xinit := rfl
theorem ldblk : Statement .ldblk := rfl
theorem mix : Statement .mix := rfl
theorem radj : Statement .radj := rfl
theorem extract : Statement .extract := rfl

end Sys2Proof.Laws.TableMatch
end

