-- ==== Sys2Proof/Laws/Step.lean ====
section
/-! SUPPORT. What a step can do: the engine's operation of each phase, and what a host read leaves alone. -/

namespace Sys2Proof.Machine

/-- The operation each phase selects. -/
theorem issued_eq (s : State) :
    issued s = match s.phase with
      | .idle => none
      | .copy => some .copyb
      | .pad => some .padb
      | .cki => some .ckinit
      | .cks => some .ckstep
      | .cka => some .ckapp
      | .xi => some .xinit
      | .ldb => some .ldblk
      | .mix => some .mix
      | .radj => some .radj
      | .ext => some .extract
      | .done => none
      | .fault => none := by
  unfold issued
  cases s.phase <;> rfl

/-- The engine has a step exactly while it is `BUSY`. -/
theorem issued_isSome (s : State) : (issued s).isSome = s.busy := by
  rw [issued_eq, State.busy]
  cases s.phase <;> rfl

theorem step_of_host_nil {s : State} (h : s.host = []) : step s = engineStep s := by
  simp [step, h]

theorem step_of_host_cons {s : State} {m : HostMove} {rest : List HostMove} (h : s.host = m :: rest) :
    step s = hostStep m { s with host := rest } := by
  simp [step, h]

/-- A host read of one byte changes at most the count of free bytes. -/
theorem hostReadByte_state {s s' : State} {off : Nat} {b : Byte} (h : hostReadByte s off = .ok (b, s')) :
    ∃ d, s' = { s with draws := d } := by
  unfold hostReadByte at h
  split_ifs at h
  all_goals first
    | (simp only [Except.ok.injEq, Prod.mk.injEq] at h; exact ⟨s.draws, h.2.symm⟩)
    | (simp only [drawByte, Except.ok.injEq, Prod.mk.injEq] at h; exact ⟨s.draws + 1, h.2.symm⟩)

/-- A read transaction changes at most the count of free bytes. -/
theorem hostRead_state {n off : Nat} {s s' : State} {bs : List Byte} (h : hostRead off n s = .ok (bs, s')) :
    ∃ d, s' = { s with draws := d } := by
  induction n generalizing off s s' bs with
  | zero =>
    simp only [hostRead, Except.ok.injEq, Prod.mk.injEq] at h
    exact ⟨s.draws, h.2.symm⟩
  | succ n ih =>
    rw [hostRead] at h
    split at h
    · simp at h
    · rename_i b s₁ hb
      obtain ⟨d₁, rfl⟩ := hostReadByte_state hb
      split at h
      · simp at h
      · rename_i bs₂ s₂ hs
        obtain ⟨d₂, rfl⟩ := ih hs
        simp only [Except.ok.injEq, Prod.mk.injEq] at h
        exact ⟨d₂, h.2.symm⟩

end Sys2Proof.Machine
end

