-- ==== Sys2Proof/Laws/Run.lean ====
section
/-! SUPPORT. Runs of the engine among the host's quiet moves: while the engine is `BUSY`, such a move changes nothing
but what the host holds, so a run among them is the run of the engine alone. -/

namespace Sys2Proof.Machine

/-- The state with other values in the fields that are the host's and the model's own. -/
def State.hosted (s : State) (h : List HostMove) (rd : List Byte) (d : Nat) : State :=
  { s with host := h, rdata := rd, draws := d }

@[simp] theorem hosted_phase (s : State) (h rd d) : (s.hosted h rd d).phase = s.phase := rfl
@[simp] theorem hosted_busy (s : State) (h rd d) : (s.hosted h rd d).busy = s.busy := rfl
@[simp] theorem hosted_host (s : State) (h rd d) : (s.hosted h rd d).host = h := rfl
@[simp] theorem hosted_outValid (s : State) (h rd d) : (s.hosted h rd d).outValid = s.outValid := rfl
@[simp] theorem hosted_hosted (s : State) (h rd d h' rd' d') :
    (s.hosted h rd d).hosted h' rd' d' = s.hosted h' rd' d' := rfl
theorem hosted_self (s : State) : s.hosted s.host s.rdata s.draws = s := rfl
@[simp] theorem issued_hosted (s : State) (h rd d) : issued (s.hosted h rd d) = issued s := rfl
@[simp] theorem traceCounters_hosted (i : Instr) (s : State) (h rd d) :
    traceCounters i (s.hosted h rd d) = traceCounters i s := by cases i <;> rfl

theorem run_succ {n : Nat} {s t : State} (h : step s = .next t) : run (n + 1) s = run n t := by
  simp [run, h]

/-- A run of `m + n` steps is a run of `m` steps and one of `n` steps from where it ends. -/
theorem run_add {m n : Nat} {s t : State} (h : run m s = .next t) : run (m + n) s = run n t := by
  induction m generalizing s with
  | zero => cases h; simp
  | succ m ih =>
    rw [show m + 1 + n = m + n + 1 by omega, run]
    rw [run] at h
    split at h
    · exact ih h
    · cases h
    · cases h

theorem nextCkstep_hosted (s : State) (h rd d) : nextCkstep (s.hosted h rd d) = (nextCkstep s).hosted h rd d := by
  unfold nextCkstep State.hosted
  dsimp only
  split_ifs <;> rfl

theorem nextMix_hosted (s : State) (h rd d) : nextMix (s.hosted h rd d) = (nextMix s).hosted h rd d := by
  unfold nextMix State.hosted
  dsimp only
  split_ifs <;> rfl

theorem acceptDigest_hosted (n : Nat) (s : State) (h rd d) :
    acceptDigest n (s.hosted h rd d) = (acceptDigest n s).hosted h rd d := by
  unfold acceptDigest
  rw [show (clearError (s.hosted h rd d)).wFits = (clearError s).wFits from rfl]
  split_ifs <;> rfl

/-- A sequencer operation neither reads nor writes what is the host's. -/
theorem exec_hosted {i : Instr} {s t : State} (hs : exec i s = .next t) (h : List HostMove) (rd : List Byte) (d : Nat) :
    exec i (s.hosted h rd d) = .next (t.hosted h rd d) := by
  cases i with
  | digest n =>
    simp only [exec, execDigest, hosted_busy, acceptDigest_hosted] at hs ⊢
    injection hs with hs
    rw [← hs]
    split_ifs <;> rfl
  | copyb =>
    obtain ⟨hq, hf, ⟨he, rfl⟩ | ⟨he, rfl⟩⟩ := execCopyb_next hs <;>
      simp_all [exec, execCopyb, readIN, writeW, State.hosted, State.wFits, Memory.writeBytes]
  | padb =>
    obtain ⟨hf, ⟨he, rfl⟩ | ⟨he, rfl⟩⟩ := execPadb_next hs <;>
      simp_all [exec, execPadb, writeW, State.hosted, State.wFits, Memory.writeBytes]
  | ckinit => cases hs; rfl
  | ckstep =>
    obtain ⟨hk, hf, rfl⟩ := execCkstep_next hs
    rw [← nextCkstep_hosted]
    simp [exec, execCkstep, readW, hf, hk, Memory.readBytes, State.hosted, show ∀ n,
      ({ s with host := h, rdata := rd, draws := d } : State).wFits n = s.wFits n from fun _ => rfl]
  | ckapp =>
    obtain ⟨hf, rfl⟩ := execCkapp_next hs
    simp_all [exec, execCkapp, writeW, State.hosted, State.wFits]
  | xinit => cases hs; rfl
  | ldblk =>
    obtain ⟨hf, rfl⟩ := execLdblk_next hs
    simp [exec, execLdblk, readW, hf, State.hosted, show ∀ n,
      ({ s with host := h, rdata := rd, draws := d } : State).wFits n = s.wFits n from fun _ => rfl]
  | mix =>
    obtain ⟨hk, rfl⟩ := execMix_next hs
    rw [← nextMix_hosted]
    simp [exec, execMix, State.hosted, hk]
  | radj =>
    obtain ⟨hr, rfl⟩ | ⟨hr, hb, rfl⟩ | ⟨hr, hb, rfl⟩ := execRadj_next hs
    · simp [exec, execRadj, State.hosted, hr]
    · simp [exec, execRadj, State.hosted, Nat.not_lt.mpr hr, hb]
    · simp [exec, execRadj, State.hosted, Nat.not_lt.mpr hr, hb]
  | extract => cases hs; rfl

/-- So the engine's step is the same whatever the host has still to do. -/
theorem engineStep_hosted {s t : State} (hs : engineStep s = .next t) (h : List HostMove) (rd : List Byte) (d : Nat) :
    engineStep (s.hosted h rd d) = .next (t.hosted h rd d) := by
  unfold engineStep at hs ⊢
  rw [issued_hosted]
  split at hs
  · exact exec_hosted hs h rd d
  · cases hs
    rfl

/-- A read inside the engine's registers always answers. -/
theorem hostRead_answers {n off : Nat} (s : State) (hle : off + n ≤ 0x20) :
    ∃ bs d, hostRead off n s = .ok (bs, { s with draws := d }) := by
  induction n generalizing off s with
  | zero => exact ⟨[], s.draws, rfl⟩
  | succ n ih =>
    have hb : ∃ b s', hostReadByte s off = .ok (b, s') := by
      unfold hostReadByte
      split_ifs
      all_goals first | exact ⟨_, _, rfl⟩ | omega
    obtain ⟨b, s', hb⟩ := hb
    obtain ⟨d, rfl⟩ := hostReadByte_state hb
    obtain ⟨bs, d', hr⟩ := ih { s with draws := d } (off := off + 1) (by omega)
    exact ⟨b :: bs, d', by rw [hostRead, hb]; simp only; rw [hr]⟩

/-- A quiet move other than a wait changes nothing, while the engine is `BUSY`, but what the host holds. -/
theorem step_quiet {s : State} {m : HostMove} {rest : List HostMove} (hb : s.busy = true) (hq : m.quiet = true)
    (hw : m ≠ .wait) (hh : s.host = m :: rest) : ∃ rd d, step s = .next (s.hosted rest rd d) := by
  rw [step_of_host_cons hh]
  cases m with
  | wait => exact absurd rfl hw
  | reset o => cases hq
  | present bs => cases hq
  | writeCmd w =>
    refine ⟨s.rdata, s.draws, ?_⟩
    have hb' : ({ s with host := rest } : State).busy = true := hb
    simp only [hostStep, hostWriteCmd]
    split
    · rename_i i hi
      rw [decodeCommand] at hi
      split at hi
      · cases hi
        simp only [exec, execDigest, hb', if_true]
        rfl
      · cases hi
    · rw [if_pos hb']
      rfl
  | writeByte off b =>
    simp only [HostMove.quiet, Bool.and_eq_true, decide_eq_true_eq] at hq
    refine ⟨s.rdata, s.draws, ?_⟩
    simp only [hostStep, hostWriteByte]
    rw [if_neg (by omega), if_pos hq.2]
    rfl
  | read off n =>
    simp only [HostMove.quiet, decide_eq_true_eq] at hq
    obtain ⟨bs, d, hr⟩ := hostRead_answers { s with host := rest } hq
    exact ⟨bs, d, by simp only [hostStep, hostReadMove, hr]; rfl⟩

/-- `Undisturbed` after a quiet move that is not a wait: such a move comes while the engine has a step to take. -/
theorem undisturbed_cons {n : Nat} {m : HostMove} {ms rest : List HostMove} (hw : m ≠ .wait)
    (h : Undisturbed n (m :: ms) rest) : m.quiet = true ∧ 0 < n ∧ Undisturbed n ms rest := by
  obtain ⟨hq, h⟩ := h
  rw [List.forall_mem_cons] at hq
  have hcount : (m :: ms).count HostMove.wait = ms.count HostMove.wait := by simp [hw]
  rw [hcount] at h
  refine ⟨hq.1, ?_, hq.2, ?_⟩
  · rcases h with ⟨rfl, hl⟩ | ⟨hlt, -⟩
    · rcases List.eq_nil_or_concat ms with rfl | ⟨ms', a, rfl⟩
      · exact absurd (hl m rfl) hw
      · have : a = .wait := hl a (by simp [List.getLast?_cons])
        subst this
        simp
    · omega
  · rcases h with ⟨hn, hl⟩ | h
    · refine .inl ⟨hn, fun a ha => hl a ?_⟩
      rcases List.eq_nil_or_concat ms with rfl | ⟨ms', b, rfl⟩
      · cases ha
      · simpa [List.getLast?_cons] using ha
    · exact .inr h

/-- `Undisturbed` after a wait: the engine has taken a step. -/
theorem undisturbed_wait {n : Nat} {ms rest : List HostMove} (h : Undisturbed n (.wait :: ms) rest) :
    ∃ n', n = n' + 1 ∧ Undisturbed n' ms rest := by
  obtain ⟨hq, h⟩ := h
  rw [List.forall_mem_cons] at hq
  have hcount : (HostMove.wait :: ms).count HostMove.wait = ms.count HostMove.wait + 1 := by simp
  rw [hcount] at h
  refine ⟨n - 1, by omega, hq.2, ?_⟩
  rcases h with ⟨hn, hl⟩ | ⟨hlt, hr⟩
  · refine .inl ⟨by omega, fun a ha => hl a ?_⟩
    rcases List.eq_nil_or_concat ms with rfl | ⟨ms', b, rfl⟩
    · cases ha
    · simpa [List.getLast?_cons] using ha
  · exact .inr ⟨by omega, hr⟩

/-- With no moves left: the engine has no more steps to take, or the host does nothing any more. -/
theorem undisturbed_nil {n : Nat} {rest : List HostMove} (h : Undisturbed n [] rest) : n = 0 ∨ rest = [] := by
  obtain ⟨-, ⟨hn, -⟩ | ⟨-, hr⟩⟩ := h
  · exact .inl (by simpa using hn.symm)
  · exact .inr hr

/-- An engine step leaves what is the host's as it was. -/
theorem engineStep_host {s t : State} (hs : engineStep s = .next t) : t.host = s.host := by
  have h := (engineStep_hosted hs s.host s.rdata s.draws).symm.trans hs
  injection h with h
  rw [← h]
  rfl

/-- A step that is the engine's, with no move of the host pending, and the same step in which the host waits. -/
theorem step_engine {s t : State} (hh : s.host = []) (hs : step s = .next t) (ms : List HostMove) (rd d) :
    t.host = [] ∧ step (s.hosted [] rd d) = .next (t.hosted [] rd d) ∧
      step (s.hosted (.wait :: ms) rd d) = .next (t.hosted ms rd d) := by
  rw [step_of_host_nil hh] at hs
  exact ⟨(engineStep_host hs).trans hh, engineStep_hosted hs [] rd d, engineStep_hosted hs ms rd d⟩

theorem executed_hosted_nil {s : State} (hh : s.host = []) (rd d) : executed (s.hosted [] rd d) = executed s := by
  simp [executed, State.enginesTurn, hh]

theorem executed_hosted_wait {s : State} (hh : s.host = []) (ms rd d) :
    executed (s.hosted (.wait :: ms) rd d) = executed s := by
  simp [executed, State.enginesTurn, hh]

theorem executed_hosted_move {m : HostMove} (hw : m ≠ .wait) (s : State) (ms rd d) :
    executed (s.hosted (m :: ms) rd d) = [] := by
  simp [executed, State.enginesTurn, hw]

theorem trace_succ {n : Nat} {s t : State} (h : step s = .next t) : trace (n + 1) s = executed s ++ trace n t := by
  simp [trace, h]

/-- The first step of a run that answers. -/
theorem run_first {n : Nat} {s u : State} (h : run (n + 1) s = .next u) : ∃ t, step s = .next t ∧ run n t = .next u := by
  rw [run] at h
  split at h
  · exact ⟨_, ‹_›, h⟩
  · cases h
  · cases h

/-- The engine alone runs the same whatever the host holds. -/
theorem run_hosted_nil {n : Nat} {s u : State} (hh : s.host = []) (hrun : run n s = .next u) (rd d) :
    run n (s.hosted [] rd d) = .next (u.hosted [] rd d) ∧ trace n (s.hosted [] rd d) = trace n s := by
  induction n generalizing s with
  | zero => cases hrun; exact ⟨rfl, rfl⟩
  | succ n ih =>
    obtain ⟨t, hs, hrun⟩ := run_first hrun
    obtain ⟨ht, hs', -⟩ := step_engine hh hs [] rd d
    obtain ⟨h₁, h₂⟩ := ih ht hrun
    exact ⟨(run_succ hs').trans h₁, by rw [trace_succ hs', trace_succ hs, h₂, executed_hosted_nil hh]⟩

/-- A run of the engine alone, `BUSY` before each of its steps, is also its run among quiet moves of the host: the same
operations with the same counters, the same state but for what the host holds, and the moves after it not yet made. -/
theorem run_undisturbed {moves rest : List HostMove} {n : Nat} {s u : State} (hh : s.host = [])
    (hrun : run n s = .next u) (hbusy : ∀ j, j < n → ∃ v, run j s = .next v ∧ v.busy = true)
    (hm : Undisturbed n moves rest) (rd : List Byte) (d : Nat) :
    (∃ rd' d', run (runLength n moves) (s.hosted (moves ++ rest) rd d) = .next (u.hosted rest rd' d')) ∧
      trace (runLength n moves) (s.hosted (moves ++ rest) rd d) = trace n s := by
  induction moves generalizing n s rd d with
  | nil =>
    rcases undisturbed_nil hm with rfl | rfl
    · cases hrun
      exact ⟨⟨rd, d, rfl⟩, rfl⟩
    · obtain ⟨h₁, h₂⟩ := run_hosted_nil hh hrun rd d
      exact ⟨⟨rd, d, h₁⟩, h₂⟩
  | cons m ms ih =>
    by_cases hw : m = .wait
    · subst hw
      obtain ⟨n, rfl, hm'⟩ := undisturbed_wait hm
      obtain ⟨t, hs, hrun⟩ := run_first hrun
      obtain ⟨ht, -, hs'⟩ := step_engine hh hs (ms ++ rest) rd d
      have hb : ∀ j, j < n → ∃ v, run j t = .next v ∧ v.busy = true := fun j hj => by
        simpa only [run_succ hs] using hbusy (j + 1) (by omega)
      obtain ⟨⟨rd', d', h₁⟩, h₂⟩ := ih ht hrun hb hm' rd d
      have hl : runLength (n + 1) (.wait :: ms) = runLength n ms + 1 := by simp [runLength]; omega
      rw [hl]
      exact ⟨⟨rd', d', (run_succ hs').trans h₁⟩, by
        rw [List.cons_append, trace_succ hs', trace_succ hs, h₂, executed_hosted_wait hh]⟩
    · obtain ⟨hq, hpos, hm⟩ := undisturbed_cons hw hm
      obtain ⟨v, hv, hb⟩ := hbusy 0 hpos
      cases hv
      obtain ⟨rd₁, d₁, hs⟩ := step_quiet (s := s.hosted (m :: (ms ++ rest)) rd d) hb hq hw rfl
      rw [hosted_hosted] at hs
      obtain ⟨⟨rd', d', h₁⟩, h₂⟩ := ih hh hrun hbusy hm rd₁ d₁
      have hl : runLength n (m :: ms) = runLength n ms + 1 := by simp [runLength, hw]; omega
      rw [hl]
      exact ⟨⟨rd', d', (run_succ hs).trans h₁⟩, by
        rw [List.cons_append, trace_succ hs, h₂, executed_hosted_move hw, List.nil_append]⟩

end Sys2Proof.Machine
end

