-- ==== Sys2Proof/Tests/Slice0.lean ====
section
/-! SUPPORT. The model's own tests, with expected values from 95_test_vectors.md (E and V numbers) and from the
encodings of 30_encoding.md, and a witness for the hypotheses of each statement of Certificates/Slice0/Obligations.lean. -/

namespace Sys2Proof.Machine.Tests

open Sys2Proof Sys2Proof.Machine

/-- What `f` reads of a next state. -/
def onNext {α : Type} (f : State → α) : Result → Option α
  | .next s => some (f s)
  | .fault _ => none
  | .refused _ => none

/-! ## WellFormed and Decode -/

/-- The only check of `Instr.wf`, refused at its boundary (30_encoding.md R47). -/
theorem test_wf_digest_too_long : (Instr.digest (2 ^ 56)).wf = false ∧ (Instr.digest (2 ^ 56 - 1)).wf = true := by
  decide

/-- E13, E16, E18, E28: words from the bit layout of R45. -/
theorem test_decode_command :
    decodeCommand 0x0000000000000301#64 = .ok (.digest 3) ∧
    decodeCommand 0x0000000000000300#64 = .error (.illegalOpcode 0x00#8) ∧
    decodeCommand 0xffffffffffffffff#64 = .error (.illegalOpcode 0xff#8) ∧
    decodeCommand 0xffffffffffffff01#64 = .ok (.digest 72057594037927935) := by
  decide

/-- The selectors of R46, one for each family. -/
theorem test_decode_selector :
    decodeSelector 0b0001#4 = .ok .copyb ∧ decodeSelector 0b0010#4 = .ok .padb ∧
    decodeSelector 0b0011#4 = .ok .ckinit ∧ decodeSelector 0b0100#4 = .ok .ckstep ∧
    decodeSelector 0b0101#4 = .ok .ckapp ∧ decodeSelector 0b0110#4 = .ok .xinit ∧
    decodeSelector 0b0111#4 = .ok .ldblk ∧ decodeSelector 0b1000#4 = .ok .mix ∧
    decodeSelector 0b1001#4 = .ok .radj ∧ decodeSelector 0b1010#4 = .ok .extract := by
  decide

/-- Codes that select nothing (R46, R50). -/
theorem test_decode_selector_refuses :
    decodeSelector 0#4 = .error (.noOperation 0#4) ∧ decodeSelector 11#4 = .error (.noOperation 11#4) ∧
    decodeSelector 12#4 = .error (.noOperation 12#4) ∧
    decodeSelector 13#4 = .error (.reservedSelector 13#4) := by
  decide

/-- The word 0x301 as bytes, least significant first (20_memory.md R33), and lengths that are no code (R51). -/
theorem test_decode_bytes :
    decodeBytes [0x01#8, 0x03#8, 0#8, 0#8, 0#8, 0#8, 0#8, 0#8] = .ok (.digest 3) ∧
    decodeBytes [0x08#8] = .ok .mix ∧ decodeBytes [0x18#8] = .error (.notASelector 0x18#8) ∧
    decodeBytes [0x01#8, 0x03#8] = .error (.wrongLength 2) ∧ decodeBytes [] = .error (.wrongLength 0) := by
  decide

/-- Table words, and a step that runs them from reset. -/
theorem test_table_words :
    decodeTableWord 64 1 = some (.digest 0) ∧ decodeTableWord 8 1 = some .copyb ∧
    decodeTableWord 8 10 = some .extract ∧ decodeTableWord 8 11 = none := by
  decide

theorem test_fetch_word_runs :
    onNext (fun t => (t.phase, t.p)) (step (State.reset.withFetchWord 64 1)) = some (Phase.pad, 16) ∧
    onNext (fun t => (t.phase, t.len)) (step (State.reset.withFetchWord 8 1)) = some (Phase.pad, 1) ∧
    onNext (fun t => (t.phase, t.t)) (step (State.reset.withFetchWord 8 8)) = some (Phase.mix, 0x29#8) := by
  decide

/-! ## Single steps (95_test_vectors.md, section 4) -/

/-- An invocation with the input 61 62 63 and room for exactly 32 bytes. -/
def abc : State :=
  { State.reset with nin := 3, p := 13, wCap := some 32, inp := Memory.ofBytes [0x61#8, 0x62#8, 0x63#8] }

/-- An invocation of the empty input. -/
def empty : State := { State.reset with nin := 0, p := 16 }

/-- E1, E9, E11. -/
theorem test_sub : sub 0x00#8 = 0x29#8 ∧ sub 0xdd#8 = 0x00#8 ∧ sub 0xff#8 = 0x14#8 := by decide

/-- E21, E22, E23: the capacity decides. -/
theorem test_digest_capacity :
    onNext (fun t => (t.phase, t.status)) (step { State.reset with wCap := some 47, host := [.writeCmd 0x1001#64] })
      = some (Phase.fault, 0x07#8) ∧
    onNext (fun t => (t.phase, t.status, t.nin, t.p))
        (step { State.reset with wCap := some 48, host := [.writeCmd 0x1001#64] })
      = some (Phase.copy, 0x01#8, 16, 16) := by
  decide

/-- E15, E19, E27: accepted from `FAULT`, illegal in `DONE`, dropped in `BUSY`. -/
theorem test_digest_states :
    onNext (fun t => (t.phase, t.status, t.nin, t.p))
        (step { State.reset with phase := .fault, err := .illegalCommand, host := [.writeCmd 0xf01#64] })
      = some (Phase.copy, 0x01#8, 15, 1) ∧
    onNext (fun t => t.status) (step { State.reset with phase := .done, host := [.writeCmd 0x302#64] })
      = some 0x0b#8 ∧
    onNext (fun t => (t.phase, t.status)) (step { abc with phase := .copy, host := [.writeCmd 0x300#64] })
      = some (Phase.copy, 0x01#8) := by
  decide

/-- E30. -/
theorem test_copyb_middle :
    onNext (fun t => (t.w.read 1, t.len, t.q, t.phase)) (step { abc with phase := .copy, q := 1, len := 1 })
      = some (0x62#8, 2, 2, Phase.copy) := by
  decide

/-- E31. -/
theorem test_copyb_last :
    onNext (fun t => (t.w.read 2, t.len, t.q, t.phase)) (step { abc with phase := .copy, q := 2, len := 2 })
      = some (0x63#8, 3, 0, Phase.pad) := by
  decide

/-- E34. -/
theorem test_padb_last :
    onNext (fun t => (t.w.read 15, t.len, t.q, t.phase)) (step { abc with phase := .pad, q := 12, len := 15 })
      = some (0x0d#8, 16, 13, Phase.cki) := by
  decide

/-- E36. -/
theorem test_padb_first_of_sixteen :
    onNext (fun t => (t.w.read 0, t.len, t.q, t.phase)) (step { empty with phase := .pad })
      = some (0x10#8, 1, 1, Phase.pad) := by
  decide

/-- E38. -/
theorem test_ckinit :
    onNext (fun t => (t.c, t.l, t.i, t.k, t.phase))
        (step { empty with phase := .cki, c := regBuild 16 (fun _ => 0xee#8), l := 7#8, i := 9, k := 5 })
      = some (regZero 16, 0x00#8, 0, 0, Phase.cks) := by
  decide

/-- E46. -/
theorem test_ckstep_last :
    onNext (fun t => (regRead t.c 15, t.l, t.k, t.i, t.phase))
        (step { empty with phase := .cks, w := [(15, 0x10#8)], l := 0xea#8, k := 15, len := 16 })
      = some (0x8d#8, 0x8d#8, 0, 0, Phase.cka) := by
  decide

/-- E47, E48: the block boundary keeps `L`, and the old `C[0]` is overwritten, not folded in. -/
theorem test_ckstep_next_block :
    onNext (fun t => (t.l, t.k, t.i, t.phase))
        (step { empty with phase := .cks, l := 0x65#8, k := 15, len := 32 })
      = some (0xa5#8, 0, 1, Phase.cks) ∧
    onNext (fun t => (regRead t.c 0, t.l, t.k))
        (step { empty with
          phase := .cks, w := [(16, 0x10#8)], c := regBuild 16 (fun _ => 0x29#8), l := 0xa5#8, i := 1, len := 32 })
      = some (0x28#8, 0x28#8, 1) := by
  decide

/-- E49, with `C[j] = j + 1` in place of its bytes: `C[0]` goes lowest. -/
theorem test_ckapp :
    onNext (fun t => (t.w.read 16, t.w.read 31, t.w.read 15, t.len, t.phase))
        (step { empty with phase := .cka, c := regBuild 16 (fun j => BitVec.ofNat 8 (j + 1)), len := 16 })
      = some (0x01#8, 0x10#8, 0x00#8, 32, Phase.xi) := by
  decide

/-- E51. -/
theorem test_xinit :
    onNext (fun t => (t.x, t.t, t.i, t.phase))
        (step { empty with phase := .xi, x := regBuild 48 (fun _ => 0xee#8), t := 7#8, i := 3 })
      = some (regZero 48, 0x00#8, 0, Phase.ldb) := by
  decide

/-- E53, lanes 0 and 15: `X[32 + j]` from the old `X[j]`, and `T` reset (90_conflicts.md C2). -/
theorem test_ldblk :
    onNext (fun t => (regRead t.x 0, regRead t.x 16, regRead t.x 32, regRead t.x 31, regRead t.x 47))
        (step { empty with
          phase := .ldb, i := 1, t := 0x57#8, r := 3, k := 4, len := 32,
          x := regBuild 48 (fun k => if k = 0 then 0x31#8 else if k = 15 then 0x9a#8 else 0xee#8),
          w := [(16, 0x62#8), (31, 0x8d#8)] })
      = some (0x31#8, 0x62#8, 0x53#8, 0x8d#8, 0x17#8) ∧
    onNext (fun t => (t.t, t.r, t.k, t.phase)) (step { empty with phase := .ldb, t := 0x57#8, r := 3, k := 4 })
      = some (0x00#8, 0, 0, Phase.mix) := by
  decide

/-- E57. -/
theorem test_mix_middle :
    onNext (fun t => (t.t, regRead t.x 5, regRead t.x 6, t.k, t.phase))
        (step { empty with phase := .mix, t := 0xff#8, x := regBuild 48 (fun _ => 0xff#8), k := 5 })
      = some (0xeb#8, 0xeb#8, 0xff#8, 6, Phase.mix) := by
  decide

/-- E61. -/
theorem test_mix_last :
    onNext (fun t => (t.t, regRead t.x 47, t.k, t.phase))
        (step { empty with phase := .mix, t := 0x66#8, x := regBuild 48 (fun _ => 0x10#8), k := 47 })
      = some (0xa5#8, 0xa5#8, 0, Phase.radj) := by
  decide

/-- E64. -/
theorem test_radj_wraps :
    onNext (fun t => (t.t, t.r, t.phase)) (step { empty with phase := .radj, t := 0xff#8, r := 1, len := 32 })
      = some (0x00#8, 2, Phase.mix) := by
  decide

/-- E65, E66: the end of a block and of the last block. -/
theorem test_radj_last_round :
    onNext (fun t => (t.t, t.r, t.i, t.phase))
        (step { empty with phase := .radj, t := 0xf8#8, r := 17, len := 32 })
      = some (0x09#8, 0, 1, Phase.ldb) ∧
    onNext (fun t => (t.t, t.r, t.i, t.phase))
        (step { empty with phase := .radj, t := 0xef#8, r := 17, i := 1, len := 32 })
      = some (0x00#8, 0, 1, Phase.ext) := by
  decide

/-- E70, with `X[k] = k`. -/
theorem test_extract :
    onNext (fun t => (regRead t.out 0, regRead t.out 15, t.outValid, t.status))
        (step { empty with phase := .ext, x := regBuild 48 (fun k => BitVec.ofNat 8 k) })
      = some (0x00#8, 0x0f#8, true, 0x02#8) := by
  decide

/-! ## The host's moves -/

/-- P6: `WRCMD` of an illegal word, then `RESET`. -/
theorem test_illegal_then_reset :
    onNext (fun t => t.status) (run 1 { State.reset with host := [.writeCmd 0x300#64, .reset none] }) = some 0x0b#8 ∧
    onNext (fun t => t.status) (run 2 { State.reset with host := [.writeCmd 0x300#64, .reset none] })
      = some 0x00#8 := by
  decide

/-- `RDSTAT` in `FAULT` and `RDOUT` in `DONE` (44_digest_command.md R86). -/
theorem test_host_reads :
    onNext (fun t => t.rdata)
        (step { State.reset with phase := .fault, err := .resourceExhausted, host := [HostMove.rdstat] })
      = some [0x07#8] ∧
    onNext (fun t => t.rdata)
        (step { State.reset with
          phase := .done, out := regBuild 16 (fun j => BitVec.ofNat 8 j), host := [.read 0x0f 3] })
      = some [0x00#8, 0x00#8, 0x01#8] := by
  decide

/-- V1 and V3: the checksum blocks, and the digits of R87. -/
theorem test_checksum_and_hex :
    (regRead (checksum (padded [])) 0, regRead (checksum (padded [])) 15) = (0x62#8, 0x8d#8) ∧
    regRead (checksum (padded [0x61#8, 0x62#8, 0x63#8])) 1 = 0xe2#8 ∧
    (hex (regBuild 16 fun _ => 0x8a#8)).take 3 = ['8', 'a', '8'] := by
  decide +kernel

/-! ## Witnesses: a state of the invariant in every phase -/

/-- The invocation `abc` at its last `COPYB`. -/
def atCopy : State := { abc with phase := .copy, len := 2, q := 2 }
/-- At its last `PADB`. -/
def atPad : State := { abc with phase := .pad, len := 15, q := 12 }
/-- At `CKINIT`. -/
def atCki : State := { abc with phase := .cki, len := 16 }
/-- At its last `CKSTEP`. -/
def atCks : State := { abc with phase := .cks, len := 16, k := 15 }
/-- At `CKAPP`. -/
def atCka : State := { abc with phase := .cka, len := 16 }
/-- At `XINIT`. -/
def atXi : State := { abc with phase := .xi, len := 32 }
/-- At the `LDBLK` of its last block. -/
def atLdb : State := { abc with phase := .ldb, len := 32, i := 1 }
/-- At its last `MIX`. -/
def atMix : State := { abc with phase := .mix, len := 32, i := 1, r := 17, k := 47 }
/-- At its last `RADJ`. -/
def atRadj : State := { abc with phase := .radj, len := 32, i := 1, r := 17 }
/-- At `EXTRACT`. -/
def atExt : State := { abc with phase := .ext, len := 32 }
/-- After `EXTRACT`. -/
def atDone : State := { abc with phase := .done, len := 32, out := regBuild 16 (fun j => BitVec.ofNat 8 j) }
/-- After a fault. -/
def atFault : State := { abc with phase := .fault, err := .illegalCommand }
/-- A state with a capacity of 48 and other data, before a command. -/
def ready : State := { abc with wCap := some 48, phase := .idle }

theorem abc_input_wf : abc.inp.wf = true := by decide

/-- A state built on `abc` meets the invariant when the parts that vary do. -/
theorem inv_of {s : State} (hc : s.wCap = some 32 ∨ s.wCap = some 48) (hw : s.w.wf = true) (hi : s.inp.wf = true)
    (he : s.err ≠ .none ↔ s.phase = .fault) (hp : s.phaseInv) : s.Inv := by
  refine ⟨?_, ⟨hw, hi⟩, he, hp⟩
  intro cap h
  rcases hc with hc | hc <;> rw [hc] at h <;> injection h with h <;> omega

theorem wit_inv_copy : atCopy.Inv :=
  inv_of (.inl rfl) rfl abc_input_wf (by decide) (by unfold State.phaseInv State.accepted; simp only [atCopy]; decide)
theorem wit_inv_pad : atPad.Inv :=
  inv_of (.inl rfl) rfl abc_input_wf (by decide) (by unfold State.phaseInv State.accepted; simp only [atPad]; decide)
theorem wit_inv_cki : atCki.Inv :=
  inv_of (.inl rfl) rfl abc_input_wf (by decide) (by unfold State.phaseInv State.accepted; simp only [atCki]; decide)
theorem wit_inv_cks : atCks.Inv :=
  inv_of (.inl rfl) rfl abc_input_wf (by decide) (by unfold State.phaseInv State.accepted; simp only [atCks]; decide)
theorem wit_inv_cka : atCka.Inv :=
  inv_of (.inl rfl) rfl abc_input_wf (by decide) (by unfold State.phaseInv State.accepted; simp only [atCka]; decide)
theorem wit_inv_xi : atXi.Inv :=
  inv_of (.inl rfl) rfl abc_input_wf (by decide) (by unfold State.phaseInv State.accepted; simp only [atXi]; decide)
theorem wit_inv_ldb : atLdb.Inv :=
  inv_of (.inl rfl) rfl abc_input_wf (by decide) (by unfold State.phaseInv State.accepted; simp only [atLdb]; decide)
theorem wit_inv_mix : atMix.Inv :=
  inv_of (.inl rfl) rfl abc_input_wf (by decide) (by unfold State.phaseInv State.accepted; simp only [atMix]; decide)
theorem wit_inv_radj : atRadj.Inv :=
  inv_of (.inl rfl) rfl abc_input_wf (by decide) (by unfold State.phaseInv State.accepted; simp only [atRadj]; decide)
theorem wit_inv_ext : atExt.Inv :=
  inv_of (.inl rfl) rfl abc_input_wf (by decide) (by unfold State.phaseInv State.accepted; simp only [atExt]; decide)
theorem wit_inv_done : atDone.Inv := inv_of (.inl rfl) rfl abc_input_wf (by decide) trivial
theorem wit_inv_fault : atFault.Inv := inv_of (.inl rfl) rfl abc_input_wf (by decide) trivial
theorem wit_inv_ready : ready.Inv := inv_of (.inr rfl) rfl abc_input_wf (by decide) trivial

/-! ## Witnesses: one for the hypotheses of each statement -/

/-- StepRunsDecodedInstruction, its four clauses. -/
theorem wit_step_runs :
    (atMix.host = [] ∧ decodeSelector atMix.phase.code = .ok .mix) ∧
    (∃ s : State, s.host = .wait :: [] ∧ decodeSelector s.phase.code = .ok .mix) ∧
    (∃ s : State, s.host = .writeCmd 0x301#64 :: [] ∧ decodeCommand 0x301#64 = .ok (.digest 3)) ∧
    (atDone.host = [] ∧ ∀ j, decodeSelector atDone.phase.code ≠ .ok j) :=
  ⟨by decide, ⟨{ atMix with host := [.wait] }, by decide⟩,
    ⟨{ ready with host := [.writeCmd 0x301#64] }, by decide⟩, rfl, fun j h => by
      have : decodeSelector atDone.phase.code = .error (.noOperation 11#4) := by decide
      rw [this] at h
      cases h⟩

/-- DecodeEncodeAgree at the largest length; EncodeDecodeAgree in both formats. -/
theorem wit_encoding :
    (Instr.digest (2 ^ 56 - 1)).wf = true ∧ decode (.command 0x301#64) = .ok (.digest 3) ∧
    decode (.selector 10#4) = .ok .extract := by
  decide

/-- CommandDecodingIsTotal: both sides of the opcode. -/
theorem wit_command_words :
    (0xffffffffffffff01#64).toNat % 256 = 1 ∧ (0xffffffffffffff02#64).toNat % 256 ≠ 1 := by
  decide

/-- AcceptanceOfCommandWord: its four clauses, the last two at the capacity where they meet. -/
theorem wit_acceptance :
    atMix.busy = true ∧ ready.busy = false ∧ (0x300#64).toNat % 256 ≠ 1 ∧ (0x2001#64).toNat % 256 = 1 ∧
    (∃ cap, ready.wCap = some cap ∧ (0x2001#64).toNat / 256 + (16 - (0x2001#64).toNat / 256 % 16) + 16 > cap) ∧
    (∀ cap, ready.wCap = some cap → (0x1f01#64).toNat / 256 + (16 - (0x1f01#64).toNat / 256 % 16) + 16 ≤ cap) :=
  ⟨by decide, by decide, by decide, by decide, ⟨48, by decide⟩, fun cap h => by
    injection h with h
    rw [← h]
    decide⟩

/-- DigestStartsInvocation at the longest length that 48 bytes of `W` admit. -/
theorem wit_digest_starts :
    ready.busy = false ∧ ∀ cap, ready.wCap = some cap → 31 + (16 - 31 % 16) + 16 ≤ cap :=
  ⟨by decide, fun cap h => by
    injection h with h
    omega⟩

/-- ResourceExhaustedExactlyWhenTooLong: unbounded, and 32 and 48 bytes. -/
theorem wit_resource :
    State.reset.busy = false ∧ State.reset.wCap = none ∧ ready.busy = false ∧ ready.wCap = some 48 ∧
    atDone.busy = false ∧ atDone.wCap = some 32 := by
  decide

/-- CommandWhileBusyIsDropped. -/
theorem wit_dropped : ({ atMix with host := [.writeCmd 1#64] } : State).busy = true := by decide

/-- IllegalCommandFaults, FaultPriority (first clause), FaultEntry, CommandPort: a word that faults. -/
theorem wit_illegal :
    ({ ready with host := [.writeCmd 0x300#64] } : State).busy = false ∧ (0x300#64).toNat % 256 ≠ 1 ∧
    onNext (fun t => t.phase) (step { ready with host := [.writeCmd 0x300#64] }) = some Phase.fault := by
  decide

/-- CommandPort: a state in each phase its clauses name, the capacity where two of them meet, and reads of one byte
and of all eight. -/
theorem wit_command_port :
    ready.phase = .idle ∧ atDone.phase = .done ∧ atFault.phase = .fault ∧
    ¬ (atMix.phase = .idle ∨ atMix.phase = .done ∨ atMix.phase = .fault) ∧
    (0x300#64).toNat % 256 ≠ 1 ∧ (0x1001#64).toNat % 256 = 1 ∧ (0x0f01#64).toNat % 256 = 1 ∧
    (∃ cap, atFault.wCap = some cap ∧ (0x1001#64).toNat / 256 + (16 - (0x1001#64).toNat / 256 % 16) + 16 > cap) ∧
    (∀ cap, atFault.wCap = some cap → (0x0f01#64).toNat / 256 + (16 - (0x0f01#64).toNat / 256 % 16) + 16 ≤ cap) ∧
    7 + 1 ≤ 8 ∧ onNext (fun t => t.rdata) (step { atMix with host := [.read 7 1] }) = some [0x00#8] ∧
    0 + 8 ≤ 8 ∧
    onNext (fun t => t.rdata) (step { atFault with host := [.read 0 8] }) = some (List.replicate 8 0x00#8) :=
  ⟨rfl, rfl, rfl, by decide, by decide, by decide, by decide, ⟨32, rfl, by decide⟩, fun cap h => by
    injection h with h
    subst h
    decide, by decide, by decide, by decide, by decide⟩

/-- FaultPriority, second and third clauses. -/
theorem wit_fault_priority :
    ready.phase ≠ .fault ∧
    onNext (fun t => t.phase) (step { ready with host := [.writeCmd 0x2001#64] }) = some Phase.fault ∧
    ({ ready with host := [.reset (some 1#64)] } : State).host = .reset (some 1#64) :: [] := by
  decide

/-- WaysOutOfFault: by `RESET` and by a command. -/
theorem wit_ways_out :
    atFault.phase = .fault ∧
    onNext (fun t => t.phase) (step { atFault with host := [.reset none] }) = some Phase.idle ∧
    onNext (fun t => t.phase) (step { atFault with host := [.writeCmd 1#64] }) = some Phase.pad := by
  decide

/-- ResetFromAnyState, in the middle of a run. -/
theorem wit_reset :
    ({ atMix with host := [.reset none] } : State).host = .reset none :: [] ∧ atMix.busy = true := by
  decide

/-- ResetCancelsInvocation: two runs in different places, both reset, and moves after it without a `CMD` write. -/
theorem wit_reset_cancels :
    ({ atMix with host := [.reset none, HostMove.rdstat] } : State).Inv ∧
    ({ atCks with host := [.reset none, HostMove.rdstat] } : State).Inv ∧ atMix.busy = true ∧ atCks.busy = true ∧
    atMix.inp = atCks.inp ∧ atMix.wCap = atCks.wCap ∧ atMix.rdata = atCks.rdata ∧ atMix.draws = atCks.draws ∧
    (∀ w, HostMove.writeCmd w ∉ [HostMove.rdstat]) ∧
    onNext (fun u => u.status) (run 2 { atMix with host := [.reset none, HostMove.rdstat] }) = some 0x00#8 :=
  ⟨wit_inv_mix, wit_inv_cks, by decide, by decide, rfl, rfl, rfl, rfl, fun w => by simp [HostMove.rdstat], by decide⟩

/-- CopybResult and PadbResult at the last index of `W`. -/
theorem wit_padder :
    atCopy.q < atCopy.nin ∧ ({ atCopy with len := 31 } : State).wFits 32 = true ∧
    ({ atPad with len := 31 } : State).wFits 32 = true := by
  decide

/-- CkstepResult at its last position, CkappResult, LdblkResult, MixResult at their last index. -/
theorem wit_stages :
    atCks.k < 16 ∧ atCks.wFits (16 * atCks.i + atCks.k + 1) = true ∧
    atCka.w.wf = true ∧ atCka.wFits (atCka.len + 16) = true ∧
    atLdb.wFits (16 * atLdb.i + 16) = true ∧ atMix.k < 48 := by
  decide

/-- LdblkResult, its last two clauses: states whose `X` differ above register 15. -/
theorem wit_ldblk_lanes :
    onNext (fun t => t.phase) (exec .ldblk atLdb) = some Phase.mix ∧
    onNext (fun t => t.phase) (exec .ldblk { atLdb with x := regWrite atLdb.x 16 0xee#8 }) = some Phase.mix ∧
    (List.range 16).all (fun j => regRead atLdb.x j == regRead (regWrite atLdb.x 16 0xee#8) j) = true ∧
    (List.range 16).all (fun j => regRead atLdb.x j == 0x00#8) = true := by
  decide

/-- MixResult, its two value clauses: `T` and `X[K]` 0, and `T` = 0xDD. -/
theorem wit_mix_values :
    atMix.t = 0x00#8 ∧ regRead atMix.x atMix.k = 0x00#8 ∧ ({ atMix with t := 0xdd#8 } : State).t = 0xdd#8 := by
  decide

/-- RadjResult: a round 0, and the instructions that follow the last round. -/
theorem wit_radj :
    ({ atRadj with r := 0 } : State).r = 0 ∧ onNext (fun t => t.phase) (exec .ldblk atLdb) = some Phase.mix ∧
    onNext (fun t => t.phase) (exec .extract atExt) = some Phase.done := by
  decide

/-- OnlyTheListedWriters, NonStoringFormsKeepEveryByte, StoringFormsKeepOtherBytes: forms that answer. -/
theorem wit_frames :
    onNext (fun t => t.l) (exec .ckstep atCks) ≠ some atCks.l ∧
    onNext (fun t => t.len) (exec .copyb atCopy) = some 3 ∧ atCopy.w.wf = true ∧
    onNext (fun t => t.len) (exec .padb atPad) = some 16 ∧ onNext (fun t => t.len) (exec .ckapp atCka) = some 32 := by
  decide

/-- ControlIndependentOfData: the same control state over different data. -/
theorem wit_control : SameControl atMix { atMix with t := 0xff#8, x := regBuild 48 (fun _ => 1#8), l := 2#8 } := by
  unfold SameControl
  decide

/-- EveryStepKeepsTheInvariant, WorkingBufferGrowsOnlyAtItsEnd: a step from a state of the invariant. -/
theorem wit_step_from_invariant :
    atCopy.Inv ∧ atCopy.busy = true ∧ atCopy.host = [] ∧ onNext (fun t => t.len) (step atCopy) = some 3 :=
  ⟨wit_inv_copy, by decide, rfl, by decide⟩

/-- EveryAccessInBounds and CountersStayInRange: a state for each clause. -/
theorem wit_bounds :
    atCopy.Inv ∧ atCopy.phase = .copy ∧ atPad.Inv ∧ atPad.phase = .pad ∧ atCka.Inv ∧ atCka.phase = .cka ∧
    atCks.Inv ∧ atCks.phase = .cks ∧ atLdb.Inv ∧ atLdb.phase = .ldb ∧ atMix.Inv ∧ atMix.phase = .mix ∧
    atRadj.Inv ∧ atRadj.phase = .radj :=
  ⟨wit_inv_copy, rfl, wit_inv_pad, rfl, wit_inv_cka, rfl, wit_inv_cks, rfl, wit_inv_ldb, rfl, wit_inv_mix, rfl,
    wit_inv_radj, rfl⟩

/-- StatusRegister: the invariant in every reading of `STATE`. -/
theorem wit_status :
    ready.Inv ∧ ready.status = 0x00#8 ∧ atMix.Inv ∧ atMix.status = 0x01#8 ∧ atDone.Inv ∧ atDone.status = 0x02#8 ∧
    atFault.Inv ∧ atFault.status = 0x0b#8 :=
  ⟨wit_inv_ready, by decide, wit_inv_mix, by decide, wit_inv_done, by decide, wit_inv_fault, by decide⟩

/-- OutputReadableInDone at the last byte of `OUT`; InvalidOutputReadsAFreeByte in `IDLE`. -/
theorem wit_out_reads :
    atDone.phase = .done ∧ onNext (fun t => t.rdata) (step { atDone with host := [.read 0x1f 1] }) = some [0x0f#8] ∧
    onNext (fun t => t.phase) (step atDone) = some Phase.done ∧ ready.phase ≠ .done := by
  decide

/-- OffsetsOfTheRegisterMap: the offsets where its clauses meet. -/
theorem wit_offsets :
    onNext (fun t => t.rdata) (step { ready with host := [.read 0x09 1] }) = some [0x00#8] ∧
    onNext (fun t => t.rdata) (step { ready with host := [.read 0x0f 1] }) = some [0x00#8] ∧
    onNext (fun t => t.host) (step { ready with host := [.writeByte 0x08 1#8] }) = some [] ∧
    onNext (fun t => t.host) (step { ready with host := [.writeByte 0x1f 1#8] }) = some [] ∧
    onNext (fun t => t.host) (step { ready with host := [.writeByte 0x07 1#8] }) = none ∧
    onNext (fun t => t.host) (step { ready with host := [.writeByte 0x20 1#8] }) = none ∧
    onNext (fun t => t.host) (step { ready with host := [.read 0x20 1] }) = none := by
  decide

/-- OnlyTheHostWritesInput: a move that changes `IN`, and one refused while `BUSY`. -/
theorem wit_present :
    onNext (fun t => t.inp.read 0) (step { ready with host := [.present [0x7f#8]] }) = some 0x7f#8 ∧
    ready.inp.read 0 = 0x61#8 ∧ onNext (fun t => t.host) (step { atMix with host := [.present []] }) = none := by
  decide

/-- ProtectionIsStructural: a host move, two states with the same public part, an engine operation. -/
theorem wit_protection :
    (HostMove.rdstat ≠ .wait ∧ (∀ o, HostMove.rdstat ≠ .reset o) ∧
      onNext (fun t => t.t) (step { atMix with host := [.rdstat] }) = some atMix.t) ∧
    SamePublic ready { ready with t := 0xff#8, out := regBuild 16 (fun _ => 9#8) } ∧
    onNext (fun t => t.phase) (exec .ckinit atCki) = some Phase.cks :=
  ⟨⟨by decide, fun _ => by simp [HostMove.rdstat], by decide⟩, by unfold SamePublic; decide, by decide⟩

/-- PaddingProperties, its last clause: an accepted command before its first operation, and the empty input. -/
theorem wit_padding :
    ({ abc with phase := .copy } : State).Inv ∧ ({ empty with phase := .pad, wCap := some 32 } : State).Inv ∧
    abc.len = 0 ∧ abc.q = 0 ∧ empty.len = 0 ∧ empty.q = 0 ∧ empty.nin = 0 :=
  ⟨inv_of (.inl rfl) rfl abc_input_wf (by decide) (by unfold State.phaseInv State.accepted; dsimp only; decide),
    inv_of (.inl rfl) rfl rfl (by decide) (by unfold State.phaseInv State.accepted; dsimp only; decide),
    rfl, rfl, rfl, rfl, rfl⟩

/-- ChecksumProperties: lengths for its clauses, and two different earlier parts that leave the same `L`. -/
theorem wit_checksum :
    ([] : List Byte).length % 16 = 0 ∧ (List.replicate 16 0x10#8).length = 16 ∧
    (ckRun (List.replicate 16 0x00#8)).2 = 0xa5#8 ∧
    (ckRun (List.replicate 16 0x00#8)).2 = (ckRun (List.replicate 16 0x00#8)).2 := by
  decide +kernel

/-- OnlySixteenBytesLinkBlocks: buffers and state buffers that differ elsewhere. -/
theorem wit_link :
    (List.range 16).all (fun k => regRead (regZero 48) k == regRead (regWrite (regZero 48) 16 1#8) k) = true ∧
    (List.range 16).all (fun j => (List.replicate 32 0x00#8).getD (16 * 0 + j) 0x00#8
      == (List.replicate 16 0x00#8 ++ List.replicate 16 0x01#8).getD (16 * 0 + j) 0x00#8) = true := by
  decide

/-- ChecksumStageComputesCk, CompressorStageComputesComp, FirstSixteenMixesIgnoreTheInput. -/
theorem wit_stage_runs :
    atCki.Inv ∧ atCki.host = [] ∧ atCki.phase = .cki ∧ atXi.Inv ∧ atXi.host = [] ∧ atXi.phase = .xi ∧
    atXi.wFits 16 = true :=
  ⟨wit_inv_cki, rfl, rfl, wit_inv_xi, rfl, rfl, by decide⟩

/-- `ready` about to receive `DIGEST 31`, the longest input its `W` holds. -/
def commanded : State := { ready with host := [HostMove.digest 31] }

/-- What a host may do while the engine runs: poll `STATUS`, give a command that is dropped, wait. -/
def busyMoves : List HostMove := [HostMove.rdstat, HostMove.digest 0, .wait, .read 0x10 16, .writeByte 0x09 1#8]

/-- Undisturbed in its two forms: moves that end while the engine is `BUSY`, none among them, and moves that end with
the engine's last step, before a host that goes on. -/
theorem wit_undisturbed :
    Undisturbed (stepCount 31) busyMoves [] ∧ Undisturbed (stepCount 31) [] [] ∧
    Undisturbed (stepCount 31) (HostMove.rdstat :: HostMove.digest 0 :: List.replicate (stepCount 31) .wait)
      [HostMove.rdout, HostMove.digest 3] := by
  refine ⟨⟨by decide, .inr ⟨by decide, rfl⟩⟩, ⟨by decide, .inr ⟨by decide, rfl⟩⟩, ?_, .inl ⟨?_, ?_⟩⟩
  · intro m hm
    simp only [List.mem_cons, List.mem_replicate] at hm
    rcases hm with rfl | rfl | ⟨-, rfl⟩ <;> decide
  · simp [HostMove.rdstat, HostMove.digest]
  · intro m hm
    simpa [List.getLast?_cons, List.getLast?_replicate, show stepCount 31 ≠ 0 by decide] using hm.symm

/-- DigestCommandComputesDigest, OperationSequence and OperationCounts, with `wit_undisturbed`. -/
theorem wit_digest_run :
    commanded.Inv ∧ commanded.busy = false ∧ 31 < 2 ^ 56 ∧ commanded.host = HostMove.digest 31 :: ([] ++ []) ∧
    ({ commanded with host := HostMove.digest 31 :: (busyMoves ++ []) } : State).Inv ∧
    (∀ cap, commanded.wCap = some cap → 31 + (16 - 31 % 16) + 16 ≤ cap) ∧
    onNext (fun t => t.nin) (step commanded) = some 31 ∧
    onNext (fun t => t.nin) (step { commanded with host := HostMove.digest 31 :: (busyMoves ++ []) }) = some 31 :=
  ⟨inv_of (.inr rfl) rfl abc_input_wf (by decide) trivial, by decide, by decide, rfl,
    inv_of (.inr rfl) rfl abc_input_wf (by decide) trivial, fun cap h => by
      injection h with h
      omega, by decide, by decide⟩

/-- OperationCounts, its clauses about lengths: both lengths fit a `W` of 64 bytes. -/
theorem wit_counts : 15 ≤ 15 ∧ (16 : Nat) = 16 ∧ 16 + (16 - 16 % 16) + 16 ≤ 64 := by decide

/-- A trace lists what the engine executes, not what the host does between. -/
theorem test_trace_among_moves :
    trace 4 { atCki with host := [HostMove.rdstat, .wait, HostMove.digest 0, .wait] } =
      [(.ckinit, []), (.ckstep, [0, 0])] := by
  decide

/-- BusyEngineReachesDone, with `wit_undisturbed` for its moves. -/
theorem wit_busy : atMix.Inv ∧ atMix.busy = true := ⟨wit_inv_mix, by decide⟩

/-- LeftoverStateIsNeverObservable: two states with different private data and the same command coming. -/
theorem wit_leftover :
    commanded.Inv ∧ ({ commanded with t := 0xff#8, l := 1#8, w := [(3, 9#8)], q := 7, k := 63 } : State).Inv ∧
    commanded.busy = false ∧
    SamePublic commanded { commanded with t := 0xff#8, l := 1#8, w := [(3, 9#8)], q := 7, k := 63 } :=
  ⟨inv_of (.inr rfl) rfl abc_input_wf (by decide) trivial,
    inv_of (.inr rfl) (by decide) abc_input_wf (by decide) trivial, by decide, by unfold SamePublic; decide⟩

/-- EnginesAreIndependent: two engines, each with a step. -/
theorem wit_engines :
    (match System.stepAt 0 [atMix, atCopy] with
      | .next sys => sys.length == 2
      | _ => false) = true ∧
    (match System.stepAt 1 [atMix, atCopy] with
      | .next sys => sys.length == 2
      | _ => false) = true := by
  decide

end Sys2Proof.Machine.Tests
end

section
/-! SUPPORT. Runs of whole commands. An engine run is described by the operations it executes (30_encoding.md R53) and
the states it leads between; one rule (`EngineRun.loop`) says that a loop of the sequencer computes a fold, and each
loop of a `DIGEST n` is an application of it. The proof of O52 stands at the end. -/

namespace Sys2Proof.Machine

/-! ## Memory: runs of writes -/

theorem Memory.writeBytes_append (m : Memory) (a : Nat) (xs ys : List Byte) :
    m.writeBytes a (xs ++ ys) = (m.writeBytes a xs).writeBytes (a + xs.length) ys := by
  induction xs generalizing m a with
  | nil => rfl
  | cons x xs ih =>
    rw [List.cons_append, Memory.writeBytes, Memory.writeBytes, ih, List.length_cons, Nat.add_right_comm, Nat.add_assoc]

/-- Writes at ascending indices, one at a time, are a run of writes. -/
theorem Memory.foldl_write (m : Memory) (a : Nat) (f : Nat → Byte) (n : Nat) :
    (List.range n).foldl (fun w q => Memory.write w (a + q) (f q)) m = m.writeBytes a ((List.range n).map f) := by
  induction n with
  | zero => rfl
  | succ n ih =>
    rw [List.range_succ, List.foldl_append, ih, List.map_append, Memory.writeBytes_append]
    simp [Memory.writeBytes]

theorem Memory.readBytes_writeBytes {m : Memory} (h : m.wf = true) (a : Nat) (bs : List Byte) :
    (m.writeBytes a bs).readBytes a bs.length = bs := by
  refine List.ext_getElem (by simp) fun j _ hj => ?_
  simpa [Memory.readBytes] using Memory.read_writeBytes_inside h a bs hj

/-! ## The operations' results, where they complete -/

theorem wFits_iff {s : State} {n : Nat} : s.wFits n = true ↔ ∀ cap, s.wCap = some cap → n ≤ cap := by
  unfold State.wFits
  cases s.wCap <;> simp

theorem moreBlocks_iff {i len : Nat} : moreBlocks i len = true ↔ 16 * (i + 1) < len := decide_eq_true_iff

theorem execCopyb_eq {s : State} (hq : s.q < s.nin) (hw : s.wFits (s.len + 1) = true) :
    execCopyb s = .next { s with
      w := s.w.write s.len (s.inp.read s.q), len := s.len + 1,
      q := if s.q + 1 = s.nin then 0 else s.q + 1,
      phase := if s.q + 1 = s.nin then .pad else s.phase } := by
  simp only [execCopyb, readIN, writeW, hq, hw, List.length_singleton, if_true, Memory.writeBytes]
  split_ifs <;> rfl

theorem execPadb_eq {s : State} (hw : s.wFits (s.len + 1) = true) :
    execPadb s = .next { s with
      w := s.w.write s.len (padByte s.p), len := s.len + 1, q := s.q + 1,
      phase := if s.q + 1 = s.p then .cki else s.phase } := by
  simp only [execPadb, writeW, hw, List.length_singleton, if_true, Memory.writeBytes]
  split_ifs <;> rfl

theorem execCkstep_eq {s : State} (hk : s.k < 16) (hw : s.wFits (blockIndex s.i s.k + 1) = true) :
    execCkstep s = .next (nextCkstep { s with
      c := regWrite s.c s.k (sub (s.w.read (blockIndex s.i s.k) ^^^ s.l)),
      l := sub (s.w.read (blockIndex s.i s.k) ^^^ s.l) }) := by
  simp [execCkstep, readW, hk, hw, Memory.readBytes]

theorem execCkapp_eq {s : State} (hw : s.wFits (s.len + 16) = true) :
    execCkapp s = .next { s with w := s.w.writeBytes s.len s.c.toList, len := s.len + 16, phase := .xi } := by
  simp [execCkapp, writeW, hw]

theorem execLdblk_eq {s : State} (hw : s.wFits (blockIndex s.i 0 + 16) = true) :
    execLdblk s = .next { s with
      x := loadBlock s.x (s.w.readBytes (blockIndex s.i 0) 16), t := 0x00#8, r := 0, k := 0, phase := .mix } := by
  simp [execLdblk, readW, hw]

theorem execMix_eq {s : State} (hk : s.k < 48) :
    execMix s = .next (nextMix { s with
      t := regRead s.x s.k ^^^ sub s.t, x := regWrite s.x s.k (regRead s.x s.k ^^^ sub s.t) }) := by
  simp [execMix, hk]

theorem execRadj_eq (s : State) :
    execRadj s = .next { s with
      t := s.t + BitVec.ofNat 8 s.r,
      r := if s.r < 17 then s.r + 1 else 0,
      i := if s.r < 17 then s.i else if moreBlocks s.i s.len then s.i + 1 else s.i,
      phase := if s.r < 17 then .mix else if moreBlocks s.i s.len then .ldb else .ext } := by
  unfold execRadj
  split_ifs <;> rfl

/-! ## Engine runs -/

/-- The engine, left alone by its host, executes the operations `ops` (with the counters a trace lists), one in each
step, and goes from one state to another. -/
inductive EngineRun : List TraceItem → State → State → Prop
  | nil (s : State) : EngineRun [] s s
  | cons {i : Instr} {ops : List TraceItem} {s t u : State} (hi : issued s = some i) (hs : exec i s = .next t)
      (h : EngineRun ops t u) : EngineRun ((i, traceCounters i s) :: ops) s u

namespace EngineRun

theorem single {i : Instr} {s t : State} (hi : issued s = some i) (hs : exec i s = .next t) :
    EngineRun [(i, traceCounters i s)] s t :=
  .cons hi hs (.nil t)

theorem append {ops ops' : List TraceItem} {s t u : State} (h : EngineRun ops s t) (h' : EngineRun ops' t u) :
    EngineRun (ops ++ ops') s u := by
  induction h with
  | nil => exact h'
  | cons hi hs _ ih => exact .cons hi hs (ih h')

/-- A step of an engine run is a step of the machine that executes that operation. -/
theorem step_eq {i : Instr} {s t : State} (hh : s.host = []) (hi : issued s = some i) (hs : exec i s = .next t) :
    step s = .next t ∧ t.host = [] ∧ s.busy = true ∧ executed s = [(i, traceCounters i s)] := by
  have hes : engineStep s = .next t := by simp [engineStep, hi, hs]
  refine ⟨(step_of_host_nil hh).trans hes, (engineStep_host hes).trans hh, ?_, ?_⟩
  · rw [← issued_isSome, hi]
    rfl
  · simp [executed, State.enginesTurn, hh, hi]

/-- With no host move pending, an engine run is a run of the machine, and its operations are the trace. -/
theorem run_trace {ops : List TraceItem} {s t : State} (h : EngineRun ops s t) (hh : s.host = []) :
    run ops.length s = .next t ∧ trace ops.length s = ops := by
  induction h with
  | nil => exact ⟨rfl, rfl⟩
  | cons hi hs _ ih =>
    obtain ⟨hstep, hhost, -, hex⟩ := step_eq hh hi hs
    obtain ⟨hrun, htrace⟩ := ih hhost
    exact ⟨(run_succ hstep).trans hrun, by rw [List.length_cons, trace_succ hstep, htrace, hex, List.singleton_append]⟩

/-- The engine is `BUSY` before each step of its run. -/
theorem busy_before {ops : List TraceItem} {s t : State} (h : EngineRun ops s t) (hh : s.host = []) :
    ∀ j, j < ops.length → ∃ v, run j s = .next v ∧ v.busy = true := by
  induction h with
  | nil => exact fun j hj => absurd hj (Nat.not_lt_zero j)
  | cons hi hs _ ih =>
    obtain ⟨hstep, hhost, hbusy, -⟩ := step_eq hh hi hs
    intro j hj
    cases j with
    | zero => exact ⟨_, rfl, hbusy⟩
    | succ j =>
      rw [run_succ hstep]
      exact ih hhost j (Nat.lt_of_succ_lt_succ hj)

variable {α : Type} {g : α → Nat → α} {ops : Nat → List TraceItem} {n : Nat}

/-- The loop rule: if each turn `k < n` of a loop takes a state that holds `a` to one that holds `g a k`, and turn `n`
does so and leaves the loop, then the loop's `n + 1` turns compute the fold of `g`. -/
theorem loop {At : Nat → α → State → Prop} {After : α → State → Prop}
    (turn : ∀ k a s, k < n → At k a s → ∃ t, EngineRun (ops k) s t ∧ At (k + 1) (g a k) t)
    (last : ∀ a s, At n a s → ∃ t, EngineRun (ops n) s t ∧ After (g a n) t) {a : α} {s : State} (h : At 0 a s) :
    ∃ t, EngineRun ((List.range (n + 1)).flatMap ops) s t ∧ After ((List.range (n + 1)).foldl g a) t := by
  have reach : ∀ k, k ≤ n →
      ∃ t, EngineRun ((List.range k).flatMap ops) s t ∧ At k ((List.range k).foldl g a) t := by
    intro k hk
    induction k with
    | zero => exact ⟨s, .nil s, h⟩
    | succ k ih =>
      obtain ⟨t, hrun, hat⟩ := ih (by omega)
      obtain ⟨u, hrun', hat'⟩ := turn k _ t hk hat
      exact ⟨u, by simpa [List.range_succ] using hrun.append hrun', by simpa [List.range_succ] using hat'⟩
  obtain ⟨t, hrun, hat⟩ := reach n le_rfl
  obtain ⟨u, hrun', hafter⟩ := last _ t hat
  exact ⟨u, by simpa [List.range_succ] using hrun.append hrun', by simpa [List.range_succ] using hafter⟩

/-- The loop rule where one state holds each value: `inside a k` before turn `k`, and `after a` when it is left. -/
theorem fold (inside : α → Nat → State) (after : α → State)
    (turn : ∀ a k, k < n → EngineRun (ops k) (inside a k) (inside (g a k) (k + 1)))
    (last : ∀ a, EngineRun (ops n) (inside a n) (after (g a n))) (a : α) :
    EngineRun ((List.range (n + 1)).flatMap ops) (inside a 0) (after ((List.range (n + 1)).foldl g a)) := by
  obtain ⟨t, hrun, rfl⟩ := loop (At := fun k a s => s = inside a k) (After := fun a s => s = after a) (g := g)
    (turn := by rintro k a _ hk rfl; exact ⟨_, turn a k hk, rfl⟩)
    (last := by rintro a _ rfl; exact ⟨_, last a, rfl⟩) (rfl : inside a 0 = inside a 0)
  exact hrun

end EngineRun

/-! ## The padder (41_padder.md) -/

/-- `s` after `j` bytes have been appended, `W` being `w`: where `COPY` and `PAD` are after `j` turns. -/
def State.filled (s : State) (w : Memory) (j : Nat) : State := { s with w := w, len := s.len + j, q := j }

theorem filled_zero {s : State} (hq : s.q = 0) : s.filled s.w 0 = s := by
  cases s
  cases hq
  rfl

/-- A `COPYB` in the middle of the phase, and the last one. -/
theorem copyb_run {s : State} (hph : s.phase = .copy) (hw : s.wFits (s.len + s.nin) = true) (w : Memory) (q : Nat) :
    (q + 1 < s.nin →
      EngineRun [(.copyb, [q])] (s.filled w q) (s.filled (w.write (s.len + q) (s.inp.read q)) (q + 1))) ∧
    (q + 1 = s.nin →
      EngineRun [(.copyb, [q])] (s.filled w q) { s with
        w := w.write (s.len + q) (s.inp.read q), len := s.len + s.nin, q := 0, phase := .pad }) := by
  have hi : issued (s.filled w q) = some .copyb := by simp [issued_eq, State.filled, hph]
  have hfit : q < s.nin → (s.filled w q).wFits (s.len + q + 1) = true := fun h => wFits_mono (s := s) (by omega) hw
  refine ⟨fun h => .single hi ?_, fun h => .single hi ?_⟩
  · refine (execCopyb_eq (s := s.filled w q) (by simp only [State.filled]; omega) (hfit (by omega))).trans ?_
    simp [State.filled, Nat.ne_of_lt h, Nat.add_assoc]
  · refine (execCopyb_eq (s := s.filled w q) (by simp only [State.filled]; omega) (hfit (by omega))).trans ?_
    simp [State.filled, h, Nat.add_assoc]

/-- `LOAD` appends the input to `W`. -/
theorem load_run {s : State} (hph : s.phase = .copy) (hq : s.q = 0) (hn : 0 < s.nin)
    (hw : s.wFits (s.len + s.nin) = true) :
    EngineRun (traceLoad s.nin) s { s with
      w := s.w.writeBytes s.len (s.inp.readBytes 0 s.nin), len := s.len + s.nin, q := 0, phase := .pad } := by
  obtain ⟨m, hm⟩ := Nat.exists_eq_add_one.mpr hn
  have hfold := EngineRun.fold (g := fun w q => Memory.write w (s.len + q) (s.inp.read q)) s.filled
    (fun w => { s with w := w, len := s.len + s.nin, q := 0, phase := .pad })
    (fun w q (h : q < m) => (copyb_run hph hw w q).1 (by omega)) (fun w => (copyb_run hph hw w m).2 hm.symm) s.w
  rw [Memory.foldl_write, ← List.map_eq_flatMap, ← hm, filled_zero hq] at hfold
  simpa [traceLoad, Memory.readBytes] using hfold

/-- A `PADB` in the middle of the phase, and the last one. -/
theorem padb_run {s : State} (hph : s.phase = .pad) (hw : s.wFits (s.len + s.p) = true) (w : Memory) (q : Nat) :
    (q + 1 < s.p →
      EngineRun [(.padb, [q])] (s.filled w q) (s.filled (w.write (s.len + q) (padByte s.p)) (q + 1))) ∧
    (q + 1 = s.p →
      EngineRun [(.padb, [q])] (s.filled w q) { s with
        w := w.write (s.len + q) (padByte s.p), len := s.len + s.p, q := s.p, phase := .cki }) := by
  have hi : issued (s.filled w q) = some .padb := by simp [issued_eq, State.filled, hph]
  have hfit : q < s.p → (s.filled w q).wFits (s.len + q + 1) = true := fun h => wFits_mono (s := s) (by omega) hw
  refine ⟨fun h => .single hi ?_, fun h => .single hi ?_⟩
  · refine (execPadb_eq (s := s.filled w q) (hfit (by omega))).trans ?_
    simp [State.filled, Nat.ne_of_lt h, Nat.add_assoc]
  · refine (execPadb_eq (s := s.filled w q) (hfit (by omega))).trans ?_
    simp [State.filled, h, Nat.add_assoc]

/-- `PAD` appends the pad bytes to `W`. -/
theorem pad_run {s : State} (hph : s.phase = .pad) (hq : s.q = 0) (hp : 0 < s.p)
    (hw : s.wFits (s.len + s.p) = true) :
    EngineRun (tracePad s.p) s { s with
      w := s.w.writeBytes s.len (List.replicate s.p (padByte s.p)), len := s.len + s.p, q := s.p, phase := .cki } := by
  obtain ⟨m, hm⟩ := Nat.exists_eq_add_one.mpr hp
  have hfold := EngineRun.fold (g := fun w q => Memory.write w (s.len + q) (padByte s.p)) s.filled
    (fun w => { s with w := w, len := s.len + s.p, q := s.p, phase := .cki })
    (fun w q (h : q < m) => (padb_run hph hw w q).1 (by omega)) (fun w => (padb_run hph hw w m).2 hm.symm) s.w
  rw [Memory.foldl_write s.w s.len (fun _ => padByte s.p), ← List.map_eq_flatMap, ← hm, filled_zero hq] at hfold
  simpa [tracePad] using hfold

/-- From acceptance the padder writes `Pad` of the input to `W`. -/
theorem padder_run {s : State} (hph : s.phase = if s.nin > 0 then .copy else .pad) (hl : s.len = 0) (hq : s.q = 0)
    (hp : s.p = padCount s.nin) (hw : s.wFits (s.nin + s.p) = true) :
    EngineRun (traceLoad s.nin ++ tracePad s.p) s { s with
      w := s.w.writeBytes 0 (padded (s.inp.readBytes 0 s.nin)), len := s.nin + s.p, q := s.p, phase := .cki } := by
  have hload : EngineRun (traceLoad s.nin) s { s with
      w := s.w.writeBytes 0 (s.inp.readBytes 0 s.nin), len := s.nin, q := 0, phase := .pad } := by
    rcases Nat.eq_zero_or_pos s.nin with hn | hn
    · rw [if_neg (by omega)] at hph
      convert EngineRun.nil s using 1
      · rw [hn]
        rfl
      · cases s
        simp_all [Memory.readBytes, Memory.writeBytes]
    · have h := load_run (hph.trans (if_pos hn)) hq hn (wFits_mono (by omega) hw)
      rwa [hl, Nat.zero_add] at h
  have hpad := pad_run (s := { s with
    w := s.w.writeBytes 0 (s.inp.readBytes 0 s.nin), len := s.nin, q := 0, phase := .pad })
    rfl rfl (hp ▸ padCount_pos s.nin) hw
  have hw' : s.w.writeBytes 0 (padded (s.inp.readBytes 0 s.nin)) =
      (s.w.writeBytes 0 (s.inp.readBytes 0 s.nin)).writeBytes s.nin (List.replicate s.p (padByte s.p)) := by
    simp [padded, Memory.writeBytes_append, hp]
  rw [hw']
  exact hload.append hpad

/-! ## The checksum stage (42_checksum.md) -/

/-- The bytes of `W`. -/
def State.buffer (s : State) : List Byte := s.w.readBytes 0 s.len

@[simp] theorem buffer_length (s : State) : s.buffer.length = s.len := Memory.readBytes_length s.w 0 s.len

theorem buffer_getD {s : State} {a : Nat} (h : a < s.len) : s.buffer.getD a 0x00#8 = s.w.read a := by
  rw [State.buffer, Memory.readBytes_getD _ _ h, Nat.zero_add]

theorem buffer_of_writeBytes {s : State} {m : Memory} {bs : List Byte} (h : m.wf = true) (hw : s.w = m.writeBytes 0 bs)
    (hl : s.len = bs.length) : s.buffer = bs := by
  rw [State.buffer, hw, hl]
  exact Memory.readBytes_writeBytes h 0 bs

/-- `s` in phase `CKS` at position `k` of block `i`, with the accumulator and `L` of `acc`. -/
def State.summing (s : State) (i : Nat) (acc : RegFile 16 × Byte) (k : Nat) : State :=
  { s with c := acc.1, l := acc.2, i := i, k := k, phase := .cks }

theorem nextCkstep_summing_position (s : State) (i : Nat) (acc : RegFile 16 × Byte) {k : Nat} (hk : k < 15) :
    nextCkstep (s.summing i acc k) = s.summing i acc (k + 1) :=
  if_pos hk

theorem nextCkstep_summing_block {s : State} {i : Nat} (acc : RegFile 16 × Byte) (h : 16 * (i + 1) < s.len) :
    nextCkstep (s.summing i acc 15) = s.summing (i + 1) acc 0 :=
  (if_neg (Nat.lt_irrefl 15)).trans (if_pos (moreBlocks_iff.mpr h))

theorem nextCkstep_summing_last {s : State} {i : Nat} (acc : RegFile 16 × Byte) (h : s.len ≤ 16 * (i + 1)) :
    nextCkstep (s.summing i acc 15) = { s.summing i acc 0 with phase := .cka } :=
  (if_neg (Nat.lt_irrefl 15)).trans (if_neg (moreBlocks_iff.not.mpr (Nat.not_lt.mpr h)))

/-- `CKSTEP` is one byte of `Ck`. -/
theorem ckstep_run {s : State} {i k : Nat} (hk : k < 16) (hw : s.wFits s.len = true) (hi : 16 * (i + 1) ≤ s.len)
    (acc : RegFile 16 × Byte) :
    EngineRun [(.ckstep, [i, k])] (s.summing i acc k) (nextCkstep (s.summing i (ckByte s.buffer i acc k) k)) := by
  have hin : blockIndex i k < s.len := by
    unfold blockIndex
    omega
  refine .single (i := .ckstep) rfl ((execCkstep_eq (s := s.summing i acc k) hk ?_).trans ?_)
  · exact wFits_mono (s := s) hin hw
  · simp only [ckByte, buffer_getD hin]
    rfl

/-- The sixteen `CKSTEP`s of a block are one block of `Ck`. -/
theorem ckstep_block_run {s : State} {i : Nat} (hw : s.wFits s.len = true) (hi : 16 * (i + 1) ≤ s.len)
    (acc : RegFile 16 × Byte) :
    EngineRun ((List.range 16).map fun k => (.ckstep, [i, k])) (s.summing i acc 0)
      (nextCkstep (s.summing i (ckBlock s.buffer acc i) 15)) := by
  rw [List.map_eq_flatMap]
  refine EngineRun.fold (n := 15) (s.summing i) (fun a => nextCkstep (s.summing i a 15)) (fun a k hk => ?_)
    (ckstep_run (by omega) hw hi) acc
  rw [← nextCkstep_summing_position s i _ hk]
  exact ckstep_run (by omega) hw hi a

/-- The `CKSTEP`s of all blocks leave `Ck` of the buffer in `C`. -/
theorem cks_run {s : State} {nb : Nat} (hl : s.len = 16 * (nb + 1)) (hw : s.wFits s.len = true)
    (acc : RegFile 16 × Byte) :
    EngineRun ((List.range (nb + 1)).flatMap fun i => (List.range 16).map fun k => (.ckstep, [i, k]))
      (s.summing 0 acc 0)
      { s.summing nb ((List.range (nb + 1)).foldl (ckBlock s.buffer) acc) 0 with phase := .cka } := by
  refine EngineRun.fold (fun a i => s.summing i a 0) (fun a => { s.summing nb a 0 with phase := .cka })
    (fun a i hi => ?_) (fun a => ?_) acc
  · rw [← nextCkstep_summing_block _ (by omega)]
    exact ckstep_block_run hw (by omega) a
  · rw [← nextCkstep_summing_last _ hl.le]
    exact ckstep_block_run hw hl.ge a

/-- From `CKI` the checksum stage appends `Ck` of the buffer to `W`. -/
theorem cksum_run {s : State} {nb : Nat} (hph : s.phase = .cki) (hl : s.len = 16 * (nb + 1))
    (hw : s.wFits (s.len + 16) = true) :
    EngineRun (traceCksum (nb + 1)) s { s with
      c := checksum s.buffer, l := (ckRun s.buffer).2, i := nb, k := 0,
      w := s.w.writeBytes s.len (checksum s.buffer).toList, len := s.len + 16, phase := .xi } := by
  have hinit : EngineRun [(.ckinit, [])] s (s.summing 0 (regZero 16, 0x00#8) 0) :=
    .single (by simp [issued_eq, hph]) rfl
  have hsteps := cks_run hl (wFits_mono (by omega) hw) (regZero 16, 0x00#8)
  have hrun : (List.range (nb + 1)).foldl (ckBlock s.buffer) (regZero 16, 0x00#8) = ckRun s.buffer := by
    rw [ckRun, buffer_length, hl, Nat.mul_div_cancel_left _ (by decide)]
  rw [hrun] at hsteps
  have happ : EngineRun [(.ckapp, [])] { s.summing nb (ckRun s.buffer) 0 with phase := .cka } _ :=
    .single rfl (execCkapp_eq hw)
  exact (hinit.append hsteps).append happ

/-! ## The compressor stage (43_compressor.md) -/

/-- `s` in phase `MIX` at position `k` of round `r`, with the `X` and `T` of `acc`. -/
def State.mixing (s : State) (r : Nat) (acc : RegFile 48 × Byte) (k : Nat) : State :=
  { s with x := acc.1, t := acc.2, r := r, k := k, phase := .mix }

/-- `s` after the last round of its block, with the `X` and `T` of `acc`: before the next block or `EXTRACT`. -/
def State.blockDone (s : State) (acc : RegFile 48 × Byte) : State :=
  { s with
    x := acc.1, t := acc.2, r := 0, k := 0, i := if moreBlocks s.i s.len then s.i + 1 else s.i,
    phase := if moreBlocks s.i s.len then .ldb else .ext }

theorem nextMix_mixing_position (s : State) (r : Nat) (acc : RegFile 48 × Byte) {k : Nat} (hk : k < 47) :
    nextMix (s.mixing r acc k) = s.mixing r acc (k + 1) :=
  if_pos hk

theorem nextMix_mixing_last (s : State) (r : Nat) (acc : RegFile 48 × Byte) :
    nextMix (s.mixing r acc 47) = { s.mixing r acc 0 with phase := .radj } :=
  if_neg (Nat.lt_irrefl 47)

/-- `MIX` is one position of a round. -/
theorem mix_run (s : State) (r : Nat) (acc : RegFile 48 × Byte) {k : Nat} (hk : k < 48) :
    EngineRun [(.mix, [s.i, r, k])] (s.mixing r acc k) (nextMix (s.mixing r (mixPosition acc k) k)) :=
  .single (i := .mix) rfl (execMix_eq (s := s.mixing r acc k) hk)

/-- The `MIX`es of a round are its 48 positions. -/
theorem mixes_run (s : State) (r : Nat) (acc : RegFile 48 × Byte) :
    EngineRun ((List.range 48).map fun k => (.mix, [s.i, r, k])) (s.mixing r acc 0)
      { s.mixing r ((List.range 48).foldl mixPosition acc) 0 with phase := .radj } := by
  rw [List.map_eq_flatMap]
  refine EngineRun.fold (n := 47) (s.mixing r) (fun a => { s.mixing r a 0 with phase := .radj }) (fun a k hk => ?_)
    (fun a => ?_) acc
  · rw [← nextMix_mixing_position s r _ hk]
    exact mix_run s r a (by omega)
  · rw [← nextMix_mixing_last]
    exact mix_run s r a (by decide)

/-- A round of the engine is a round of `Comp`: before the last one, and the last one. -/
theorem round_run (s : State) (acc : RegFile 48 × Byte) :
    (∀ r, r < 17 → EngineRun (traceRound s.i r) (s.mixing r acc 0) (s.mixing (r + 1) (mixRound acc r) 0)) ∧
    EngineRun (traceRound s.i 17) (s.mixing 17 acc 0) (s.blockDone (mixRound acc 17)) := by
  have hradj := fun r => EngineRun.single (i := .radj) rfl
    (execRadj_eq { s.mixing r ((List.range 48).foldl mixPosition acc) 0 with phase := .radj })
  refine ⟨fun r hr => ?_, (mixes_run s 17 acc).append (hradj 17)⟩
  have h := (mixes_run s r acc).append (hradj r)
  simpa [State.mixing, hr, traceRound, mixRound, traceCounters] using h

/-- The eighteen rounds of a block. -/
theorem rounds_run (s : State) (acc : RegFile 48 × Byte) :
    EngineRun ((List.range 18).flatMap (traceRound s.i)) (s.mixing 0 acc 0)
      (s.blockDone ((List.range 18).foldl mixRound acc)) :=
  EngineRun.fold (n := 17) (fun a r => s.mixing r a 0) s.blockDone (fun a r hr => (round_run s a).1 r hr)
    (fun a => (round_run s a).2) acc

/-- The bytes of block `i` of a buffer. -/
def blockBytes (b : List Byte) (i : Nat) : List Byte := (List.range 16).map fun j => b.getD (blockIndex i j) 0x00#8

theorem blockBytes_getD (b : List Byte) (i : Nat) {j : Nat} (hj : j < 16) :
    (blockBytes b i).getD j 0x00#8 = b.getD (blockIndex i j) 0x00#8 := by
  simp [blockBytes, List.getD, hj]

/-- A block of `Comp` loads the block's bytes as `LDBLK` does. -/
theorem compBlock_eq (b : List Byte) (x : RegFile 48) (i : Nat) :
    compBlock b x i = ((List.range 18).foldl mixRound (loadBlock x (blockBytes b i), 0x00#8)).1 := by
  refine congrArg (fun l => ((List.range 18).foldl mixRound (l, 0x00#8)).1) (regFile_ext fun k hk => ?_)
  simp only [loadBlock, regRead_regBuild _ hk]
  split_ifs
  · rfl
  · rw [blockBytes_getD _ _ (by omega)]
  · rw [blockBytes_getD _ _ (by omega)]

/-- `LDBLK` loads the buffer's block `I`. -/
theorem execLdblk_buffer {s : State} (hi : 16 * (s.i + 1) ≤ s.len) (hw : s.wFits s.len = true) :
    execLdblk s = .next (s.mixing 0 (loadBlock s.x (blockBytes s.buffer s.i), 0x00#8) 0) := by
  have hblock : s.w.readBytes (blockIndex s.i 0) 16 = blockBytes s.buffer s.i := by
    refine List.map_congr_left fun j hj => ?_
    rw [List.mem_range] at hj
    rw [buffer_getD (by unfold blockIndex; omega)]
    rfl
  rw [execLdblk_eq (wFits_mono (by unfold blockIndex; omega) hw), hblock]
  rfl

/-- A block of the engine is a block of `Comp`; its last `T` is dead. -/
theorem block_run {s : State} (hph : s.phase = .ldb) (hi : 16 * (s.i + 1) ≤ s.len) (hw : s.wFits s.len = true) :
    ∃ t, EngineRun (traceBlock s.i) s (s.blockDone (compBlock s.buffer s.x s.i, t)) := by
  have hload := EngineRun.single (i := .ldblk) (by simp [issued_eq, hph]) (execLdblk_buffer hi hw)
  have hrun := hload.append (rounds_run s (loadBlock s.x (blockBytes s.buffer s.i), 0x00#8))
  rw [compBlock_eq]
  generalize (List.range 18).foldl mixRound (loadBlock s.x (blockBytes s.buffer s.i), 0x00#8) = acc at hrun ⊢
  exact ⟨acc.2, hrun⟩

/-- `u` is `s` before block `i`, with `x` in `X`; what `T`, `R` and `K` hold there is dead. -/
def State.BeforeBlock (s : State) (i : Nat) (x : RegFile 48) (u : State) : Prop :=
  ∃ t r k, u = { s with x := x, t := t, i := i, r := r, k := k, phase := .ldb }

/-- `u` is `s` before `EXTRACT`, after block `i`, with `x` in `X`. -/
def State.BeforeExtract (s : State) (i : Nat) (x : RegFile 48) (u : State) : Prop :=
  ∃ t, u = { s with x := x, t := t, i := i, r := 0, k := 0, phase := .ext }

/-- The blocks of the engine are the run of `Comp` over the buffer. -/
theorem blocks_run {s u : State} {nb : Nat} (hl : s.len = 16 * (nb + 1)) (hw : s.wFits s.len = true)
    (hu : s.BeforeBlock 0 (regZero 48) u) :
    ∃ v, EngineRun ((List.range (nb + 1)).flatMap traceBlock) u v ∧ s.BeforeExtract nb (compRun s.buffer) v := by
  rw [compRun, buffer_length, hl, Nat.mul_div_cancel_left _ (by decide)]
  refine EngineRun.loop (At := s.BeforeBlock) ?_ ?_ hu
  · rintro i x _ hi ⟨t, r, k, rfl⟩
    obtain ⟨t', hrun⟩ := block_run (s := { s with x := x, t := t, i := i, r := r, k := k, phase := .ldb }) rfl
      (by simp only; omega) hw
    have hmore : moreBlocks i s.len = true := moreBlocks_iff.mpr (by omega)
    exact ⟨_, hrun, t', 0, 0, by simp [State.blockDone, hmore]; rfl⟩
  · rintro x _ ⟨t, r, k, rfl⟩
    obtain ⟨t', hrun⟩ := block_run (s := { s with x := x, t := t, i := nb, r := r, k := k, phase := .ldb }) rfl
      hl.ge hw
    have hmore : moreBlocks nb s.len = false := Bool.eq_false_iff.mpr (moreBlocks_iff.not.mpr (by omega))
    exact ⟨_, hrun, t', by simp [State.blockDone, hmore]; rfl⟩

/-- From `XI` the compressor stage leaves `Comp` of the buffer in `OUT`. -/
theorem compress_run {s : State} {nb : Nat} (hph : s.phase = .xi) (hl : s.len = 16 * (nb + 1))
    (hw : s.wFits s.len = true) :
    ∃ t, EngineRun (traceCompress nb) s { s with
      x := compRun s.buffer, t := t, i := nb, r := 0, k := 0, out := compress s.buffer, phase := .done } := by
  have hinit := EngineRun.single (i := .xinit) (s := s) (by simp [issued_eq, hph]) rfl
  obtain ⟨_, hblocks, t, rfl⟩ := blocks_run hl hw ⟨0x00#8, s.r, s.k, rfl⟩
  exact ⟨t, (hinit.append hblocks).append (.single (i := .extract) rfl rfl)⟩

/-! ## A whole `DIGEST n` (44_digest_command.md) -/

theorem dataBlocks_eq (n : Nat) : dataBlocks n = n / 16 + 1 := by
  rw [dataBlocks, add_padCount, Nat.mul_div_cancel_left _ (by decide)]

/-- The operations of `DIGEST n` are as many as R83 counts. -/
theorem traceDigest_length (n : Nat) : (traceDigest n).length = stepCount n := by
  have hround : ∀ i r, (traceRound i r).length = 49 := fun i r => by simp [traceRound]
  have hblock : ∀ i, (traceBlock i).length = 883 := fun i => by simp [traceBlock, hround, List.length_flatMap]
  have hcompress : ∀ nb, (traceCompress nb).length = 883 * (nb + 1) + 2 := fun nb => by
    simp [traceCompress, hblock, List.length_flatMap, Nat.mul_comm]
  have hcksum : ∀ nb, (traceCksum nb).length = 16 * nb + 2 := fun nb => by
    simp [traceCksum, List.length_flatMap, Nat.mul_comm]
  simp only [traceDigest, traceLoad, tracePad, List.length_append, List.length_map, List.length_range, hcksum,
    hcompress, stepCount]
  omega

theorem padded_length (m : List Byte) : (padded m).length = m.length + padCount m.length := by simp [padded]

/-- From an accepted `DIGEST n` to `DONE`: the engine executes the listed operations, and where `W` is in canonical form
they leave the padded input and its checksum block in `W` and their digest in `OUT`. -/
theorem digest_run {s : State} (hph : s.phase = if s.nin > 0 then .copy else .pad) (hl : s.len = 0) (hq : s.q = 0)
    (hp : s.p = padCount s.nin) (hw : s.wFits (bufferNeed s.nin) = true) :
    ∃ t, EngineRun (traceDigest s.nin) s t ∧ t.phase = .done ∧ t.err = s.err ∧ t.inp = s.inp ∧
      t.len = bufferNeed s.nin ∧
      (s.w.wf = true →
        t.buffer = padded (s.inp.readBytes 0 s.nin) ++ (checksum (padded (s.inp.readBytes 0 s.nin))).toList ∧
        t.out = digest (s.inp.readBytes 0 s.nin)) := by
  have hlen : s.nin + s.p = 16 * (s.nin / 16 + 1) := hp ▸ add_padCount s.nin
  have hfit : s.wFits (s.nin + s.p + 16) = true := hp ▸ hw
  have hpad := padder_run hph hl hq hp (wFits_mono (by omega) hfit)
  set m := s.inp.readBytes 0 s.nin with hm
  set u : State := { s with
    w := s.w.writeBytes 0 (padded m), len := s.nin + s.p, q := s.p, phase := .cki } with hu
  have hsum := cksum_run (s := u) rfl hlen hfit
  set v : State := { u with
    c := checksum u.buffer, l := (ckRun u.buffer).2, i := s.nin / 16, k := 0,
    w := u.w.writeBytes u.len (checksum u.buffer).toList, len := u.len + 16, phase := .xi } with hv
  obtain ⟨t, hcomp⟩ := compress_run (s := v) (nb := s.nin / 16 + 1) rfl (congrArg (· + 16) hlen) hfit
  have hrun := (hpad.append hsum).append hcomp
  have hops : traceLoad s.nin ++ tracePad s.p ++ traceCksum (s.nin / 16 + 1) ++ traceCompress (s.nin / 16 + 1) =
      traceDigest s.nin := by
    rw [traceDigest, dataBlocks_eq, hp]
  rw [hops] at hrun
  refine ⟨_, hrun, rfl, rfl, rfl, congrArg (fun p => s.nin + p + 16) hp, fun hwf => ?_⟩
  have hmlen : (padded m).length = s.nin + s.p := by rw [padded_length, hm, Memory.readBytes_length, hp]
  have hub : u.buffer = padded m := buffer_of_writeBytes hwf rfl hmlen.symm
  have hvb : v.buffer = padded m ++ (checksum (padded m)).toList := by
    refine buffer_of_writeBytes hwf ?_ ?_
    · rw [Memory.writeBytes_append, Nat.zero_add, hmlen, hv, hub]
    · rw [List.length_append, hmlen, Vector.length_toList]
  exact ⟨hvb, by rw [digest, ← hvb]⟩

/-- `DIGEST n` is the command its word encodes. -/
theorem decodeCommand_encodeDigest {n : Nat} (hn : n < 2 ^ 56) : decodeCommand (encodeDigest n) = .ok (.digest n) := by
  have hop : commandOpcode (encodeDigest n) = 0x01#8 := by
    refine BitVec.eq_of_toNat_eq ?_
    simp only [commandOpcode, encodeDigest, BitVec.extractLsb'_toNat, BitVec.toNat_ofNat, Nat.shiftRight_zero]
    omega
  have hlen : commandLen (encodeDigest n) = n := by
    simp only [commandLen, encodeDigest, BitVec.extractLsb'_toNat, BitVec.toNat_ofNat, Nat.shiftRight_eq_div_pow]
    omega
  rw [decodeCommand, if_pos hop, hlen]

/-- An engine that is not `BUSY` and whose `W` has room accepts a `DIGEST n`. -/
theorem step_digest {s : State} {n : Nat} {h : List HostMove} (hb : s.busy = false) (hn : n < 2 ^ 56)
    (hh : s.host = HostMove.digest n :: h) (hw : s.wFits (bufferNeed n) = true) :
    step s = .next (startInvocation n (clearError { s with host := h })) := by
  rw [step_of_host_cons hh, HostMove.digest, hostStep, hostWriteCmd, decodeCommand_encodeDigest hn]
  have hb' : ({ s with host := h } : State).busy = false := hb
  have hw' : (clearError { s with host := h }).wFits (bufferNeed n) = true := hw
  simp [exec, execDigest, hb', acceptDigest, hw']

/-- A `DIGEST n` from its acceptance to `DONE`, among the host's quiet moves: what the engine executes, and what it
leaves behind. -/
theorem digest_command_run {s : State} {n : Nat} {moves rest : List HostMove} (hb : s.busy = false) (hn : n < 2 ^ 56)
    (hh : s.host = HostMove.digest n :: (moves ++ rest)) (hm : Undisturbed (stepCount n) moves rest)
    (hw : s.wFits (bufferNeed n) = true) :
    ∃ a t, step s = .next a ∧ trace (runLength (stepCount n) moves) a = traceDigest n ∧
      run (runLength (stepCount n) moves) a = .next t ∧
      t.phase = .done ∧ t.err = .none ∧ t.host = rest ∧ t.inp = s.inp ∧ t.len = bufferNeed n ∧
      (s.w.wf = true →
        t.buffer = padded (s.inp.readBytes 0 n) ++ (checksum (padded (s.inp.readBytes 0 n))).toList ∧
        t.out = digest (s.inp.readBytes 0 n)) := by
  have hstep := step_digest hb hn hh hw
  obtain ⟨t, hrun, hdone, herr, hinp, hlen, hres⟩ :=
    digest_run (s := startInvocation n (clearError { s with host := [] })) rfl rfl rfl rfl hw
  obtain ⟨hrunN, htrace⟩ := hrun.run_trace rfl
  have hbusy := hrun.busy_before rfl
  have hcount : (traceDigest (startInvocation n (clearError { s with host := [] })).nin).length = stepCount n :=
    traceDigest_length n
  rw [hcount] at hrunN htrace hbusy
  obtain ⟨⟨rd, d, hall⟩, htr⟩ := run_undisturbed rfl hrunN hbusy hm s.rdata s.draws
  exact ⟨_, t.hosted rest rd d, hstep, htr.trans htrace, hall, hdone, herr, rfl, hinp, hlen, hres⟩

/-- Settles O52: the run of an accepted `DIGEST n` is the engine run of its operations, among the host's quiet moves. -/
theorem digestCommandComputesDigest : Obligations.DigestCommandComputesDigest := by
  intro s n moves rest hinv hb hn hh hm hcap
  obtain ⟨-, ⟨hwf, -⟩, -, -⟩ := hinv
  obtain ⟨a, t, hstep, -, hrun, hdone, herr, hhost, hinp, hlen, hres⟩ :=
    digest_command_run hb hn hh hm (wFits_iff.mpr hcap)
  obtain ⟨hbuf, hout⟩ := hres hwf
  refine ⟨t, ?_, ?_, hhost, hout, hinp, hlen, hbuf⟩
  · rw [Nat.add_comm, run_succ hstep, hrun]
  · rw [State.status, hdone, herr]
    rfl

end Sys2Proof.Machine
end

section
/-! SUPPORT. Every step keeps the invariant. In a state of the invariant the engine's step is a total function of the
state (`State.advance`), and each phase hands its counters on where the next one wants them. -/

namespace Sys2Proof.Machine

/-! ## The engine's step in the states of the invariant -/

/-- The state one engine step after `s`, where the counters of `s` stand where the invariant says. -/
def State.advance (s : State) : State :=
  match s.phase with
  | .idle => s
  | .copy => { s with
      w := s.w.write s.len (s.inp.read s.q), len := s.len + 1,
      q := if s.q + 1 = s.nin then 0 else s.q + 1, phase := if s.q + 1 = s.nin then .pad else .copy }
  | .pad => { s with
      w := s.w.write s.len (padByte s.p), len := s.len + 1, q := s.q + 1,
      phase := if s.q + 1 = s.p then .cki else .pad }
  | .cki => { s with c := regZero 16, l := 0x00#8, i := 0, k := 0, phase := .cks }
  | .cks => { s with
      c := regWrite s.c s.k (sub (s.w.read (blockIndex s.i s.k) ^^^ s.l)),
      l := sub (s.w.read (blockIndex s.i s.k) ^^^ s.l),
      k := if s.k < 15 then s.k + 1 else 0,
      i := if s.k < 15 then s.i else if moreBlocks s.i s.len then s.i + 1 else s.i,
      phase := if s.k < 15 then .cks else if moreBlocks s.i s.len then .cks else .cka }
  | .cka => { s with w := s.w.writeBytes s.len s.c.toList, len := s.len + 16, phase := .xi }
  | .xi => { s with x := regZero 48, t := 0x00#8, i := 0, phase := .ldb }
  | .ldb => { s with
      x := loadBlock s.x (s.w.readBytes (blockIndex s.i 0) 16), t := 0x00#8, r := 0, k := 0, phase := .mix }
  | .mix => { s with
      t := regRead s.x s.k ^^^ sub s.t, x := regWrite s.x s.k (regRead s.x s.k ^^^ sub s.t),
      k := if s.k < 47 then s.k + 1 else 0, phase := if s.k < 47 then .mix else .radj }
  | .radj => { s with
      t := s.t + BitVec.ofNat 8 s.r,
      r := if s.r < 17 then s.r + 1 else 0,
      i := if s.r < 17 then s.i else if moreBlocks s.i s.len then s.i + 1 else s.i,
      phase := if s.r < 17 then .mix else if moreBlocks s.i s.len then .ldb else .ext }
  | .ext => { s with out := regBuild 16 (regRead s.x), phase := .done }
  | .done => s
  | .fault => s

theorem nextCkstep_eq (s : State) :
    nextCkstep s = { s with
      k := if s.k < 15 then s.k + 1 else 0,
      i := if s.k < 15 then s.i else if moreBlocks s.i s.len then s.i + 1 else s.i,
      phase := if s.k < 15 then s.phase else if moreBlocks s.i s.len then s.phase else .cka } := by
  unfold nextCkstep
  split_ifs <;> rfl

theorem nextMix_eq (s : State) :
    nextMix s = { s with
      k := if s.k < 47 then s.k + 1 else 0, phase := if s.k < 47 then s.phase else .radj } := by
  unfold nextMix
  split_ifs <;> rfl

/-- `W` has room for all that an accepted command writes. -/
theorem accepted_fits {s : State} (h : s.accepted) {m : Nat} (hm : m ≤ s.nin + s.p + 16) : s.wFits m = true := by
  obtain ⟨-, hp, hfit⟩ := h
  exact wFits_mono (hm.trans_eq (congrArg (s.nin + · + 16) hp)) hfit

/-- The padded input of an accepted command is a positive number of blocks. -/
theorem accepted_blocks {s : State} (h : s.accepted) : s.nin + s.p = 16 * (s.nin / 16 + 1) := by
  obtain ⟨-, hp, -⟩ := h
  rw [hp, add_padCount]

/-- In a state of the invariant the engine's step completes. -/
theorem engineStep_eq_advance {s : State} (h : s.Inv) : engineStep s = .next s.advance := by
  obtain ⟨-, -, -, hp⟩ := h
  unfold State.phaseInv at hp
  unfold engineStep State.advance
  rw [issued_eq]
  cases hph : s.phase <;> simp only [hph] at hp ⊢
  case copy =>
    obtain ⟨ha, hl, hq⟩ := hp
    exact (execCopyb_eq hq (accepted_fits ha (by omega))).trans (by rw [hph])
  case pad =>
    obtain ⟨ha, hl, hq⟩ := hp
    exact (execPadb_eq (accepted_fits ha (by omega))).trans (by rw [hph])
  case cki => rfl
  case cks =>
    obtain ⟨ha, hl, hk, hi⟩ := hp
    exact (execCkstep_eq hk (accepted_fits ha (by unfold blockIndex; omega))).trans (by rw [nextCkstep_eq, hph])
  case cka =>
    obtain ⟨ha, hl⟩ := hp
    exact execCkapp_eq (accepted_fits ha (by omega))
  case xi => rfl
  case ldb =>
    obtain ⟨ha, hl, hi⟩ := hp
    exact execLdblk_eq (accepted_fits ha (by unfold blockIndex; omega))
  case mix =>
    obtain ⟨-, -, -, -, hk⟩ := hp
    exact (execMix_eq hk).trans (by rw [nextMix_eq, hph])
  case radj => exact execRadj_eq s
  case ext => rfl

/-- What an engine step leaves alone. -/
theorem advance_frame (s : State) :
    s.advance.inp = s.inp ∧ s.advance.wCap = s.wCap ∧ s.advance.err = s.err ∧ s.advance.host = s.host ∧
      s.advance.rdata = s.rdata ∧ s.advance.draws = s.draws := by
  unfold State.advance
  cases s.phase <;> exact ⟨rfl, rfl, rfl, rfl, rfl, rfl⟩

theorem advance_phase_fault (s : State) : s.advance.phase = .fault ↔ s.phase = .fault := by
  unfold State.advance
  cases hph : s.phase <;> simp only
  case copy | pad | cks | mix | radj => split_ifs <;> simp
  all_goals simp [hph]

theorem wf_advance {s : State} (h : s.w.wf = true) : s.advance.w.wf = true := by
  unfold State.advance
  cases s.phase
  case copy | pad => exact Memory.wf_write h _ _
  case cka => exact Memory.wf_writeBytes h _ _
  all_goals exact h

/-- After an engine step the counters stand where the next phase has them. -/
theorem phaseInv_advance {s : State} (h : s.phaseInv) : s.advance.phaseInv := by
  have hp := h
  unfold State.phaseInv at hp
  unfold State.advance
  cases hph : s.phase <;> simp only [hph] at hp ⊢
  case idle | done | fault => exact h
  case copy =>
    obtain ⟨ha, hl, hq⟩ := hp
    split_ifs with hlast
    · have := accepted_blocks ha
      exact ⟨ha, by simp only; omega, by simp only; omega⟩
    · exact ⟨ha, by simp only; omega, by simp only; omega⟩
  case pad =>
    obtain ⟨ha, hl, hq⟩ := hp
    split_ifs with hlast
    · exact ⟨ha, by simp only; omega⟩
    · exact ⟨ha, by simp only; omega, by simp only; omega⟩
  case cki =>
    obtain ⟨ha, hl⟩ := hp
    have := accepted_blocks ha
    exact ⟨ha, hl, by simp only; omega, by simp only; omega⟩
  case cks =>
    obtain ⟨ha, hl, hk, hi⟩ := hp
    have := accepted_blocks ha
    split_ifs with hlast hm
    · exact ⟨ha, hl, by simp only; omega, hi⟩
    · rw [moreBlocks_iff] at hm
      exact ⟨ha, hl, by simp only; omega, by simp only; omega⟩
    · exact ⟨ha, hl⟩
  case cka =>
    obtain ⟨ha, hl⟩ := hp
    exact ⟨ha, congrArg (· + 16) hl⟩
  case xi =>
    obtain ⟨ha, hl⟩ := hp
    exact ⟨ha, hl, by simp only; omega⟩
  case ldb =>
    obtain ⟨ha, hl, hi⟩ := hp
    exact ⟨ha, hl, hi, Nat.zero_lt_succ _, Nat.zero_lt_succ _⟩
  case mix =>
    obtain ⟨ha, hl, hi, hr, hk⟩ := hp
    split_ifs with hlast
    · exact ⟨ha, hl, hi, hr, by simp only; omega⟩
    · exact ⟨ha, hl, hi, hr, rfl⟩
  case radj =>
    obtain ⟨ha, hl, hi, hr, hk⟩ := hp
    have := accepted_blocks ha
    split_ifs with hlast hm
    · exact ⟨ha, hl, hi, by simp only; omega, by simp only; omega⟩
    · rw [moreBlocks_iff] at hm
      exact ⟨ha, hl, by simp only; omega⟩
    · exact ⟨ha, hl⟩
  case ext => trivial

/-- The engine's step keeps the invariant. -/
theorem inv_advance {s : State} (h : s.Inv) : s.advance.Inv := by
  obtain ⟨hc, ⟨hw, hi⟩, he, hp⟩ := h
  obtain ⟨hinp, hcap, herr, -⟩ := advance_frame s
  exact ⟨fun cap hcap' => hc cap (hcap ▸ hcap'), ⟨wf_advance hw, hinp ▸ hi⟩,
    by rw [State.errInv, herr, advance_phase_fault]; exact he, phaseInv_advance hp⟩

/-! ## The host's moves in the states of the invariant -/

theorem commandLen_lt (w : CommandWord) : commandLen w < 2 ^ 56 := (w.extractLsb' 8 56).isLt

theorem decodeCommand_cases (w : CommandWord) :
    (commandOpcode w = 0x01#8 ∧ decodeCommand w = .ok (.digest (commandLen w))) ∨
    (commandOpcode w ≠ 0x01#8 ∧ decodeCommand w = .error (.illegalOpcode (commandOpcode w))) := by
  unfold decodeCommand
  split_ifs with h
  · exact .inl ⟨h, rfl⟩
  · exact .inr ⟨h, rfl⟩

theorem inv_acceptDigest {s : State} {n : Nat} (hn : n < 2 ^ 56) (h : s.Inv) : (acceptDigest n s).Inv := by
  obtain ⟨hc, hm, -, -⟩ := h
  obtain ⟨hfit, heq⟩ | ⟨-, heq⟩ := acceptDigest_cases n s
  · rw [heq]
    have ha : (startInvocation n (clearError s)).accepted := ⟨hn, rfl, hfit⟩
    refine ⟨hc, hm, ?_, ?_⟩
    · rw [State.errInv, startInvocation_phase]
      split_ifs <;> simp
    · rw [State.phaseInv, startInvocation_phase]
      split_ifs with hpos
      · exact ⟨ha, rfl, hpos⟩
      · exact ⟨ha, by simp; omega, padCount_pos n⟩
  · rw [heq]
    exact ⟨hc, hm, by simp [State.errInv], trivial⟩

/-- What a write to `CMD` does (10_state.md R20). -/
theorem hostWriteCmd_eq (w : CommandWord) (s : State) :
    hostWriteCmd w s = .next (if s.busy then s else
      if commandOpcode w = 0x01#8 then acceptDigest (commandLen w) s else acceptIllegal s) := by
  unfold hostWriteCmd
  obtain ⟨hop, hd⟩ | ⟨hop, hd⟩ := decodeCommand_cases w
  · simp only [hd, exec, execDigest, hop, if_true]
  · simp only [hd, hop, if_false]

theorem inv_hostWriteCmd {s t : State} {w : CommandWord} (h : s.Inv) (hs : hostWriteCmd w s = .next t) : t.Inv := by
  rw [hostWriteCmd_eq] at hs
  cases hs
  split_ifs
  · exact h
  · exact inv_acceptDigest (commandLen_lt w) h
  · obtain ⟨hc, hm, -, -⟩ := h
    exact ⟨hc, hm, by simp [State.errInv, acceptIllegal], trivial⟩

/-- What the host holds is no part of the invariant. -/
theorem inv_hosted {s : State} (h : s.Inv) (ms : List HostMove) (rd : List Byte) (d : Nat) : (s.hosted ms rd d).Inv := h

/-- A read transaction that answers changes nothing but what the host holds. -/
theorem hostReadMove_next {s t : State} {off n : Nat} (hs : hostReadMove off n s = .next t) :
    ∃ rd d, t = s.hosted s.host rd d := by
  unfold hostReadMove at hs
  split at hs
  · cases hs
  · rename_i bs s' hr
    obtain ⟨d, rfl⟩ := hostRead_state hr
    cases hs
    exact ⟨bs, d, rfl⟩

theorem inv_hostStep {s t : State} {m : HostMove} (h : s.Inv) (hs : hostStep m s = .next t) : t.Inv := by
  cases m with
  | wait =>
    cases (engineStep_eq_advance h).symm.trans hs
    exact inv_advance h
  | reset o =>
    obtain ⟨hc, hm, -, -⟩ := h
    cases hs
    exact ⟨hc, hm, by simp [State.errInv], trivial⟩
  | writeCmd w => exact inv_hostWriteCmd h hs
  | writeByte off b =>
    simp only [hostStep, hostWriteByte] at hs
    split_ifs at hs
    cases hs
    exact h
  | read off n =>
    obtain ⟨rd, d, rfl⟩ := hostReadMove_next hs
    exact inv_hosted h _ _ _
  | present bytes =>
    simp only [hostStep, hostPresent] at hs
    split_ifs at hs with hb
    cases hs
    obtain ⟨hc, ⟨hw, -⟩, he, hp⟩ := h
    exact ⟨hc, ⟨hw, Memory.wf_ofBytes bytes⟩, he, hp⟩

/-- Every step keeps the invariant. -/
theorem inv_step {s t : State} (h : s.Inv) (hs : step s = .next t) : t.Inv := by
  cases hh : s.host with
  | nil =>
    cases (engineStep_eq_advance h).symm.trans ((step_of_host_nil hh).symm.trans hs)
    exact inv_advance h
  | cons m rest =>
    exact inv_hostStep (s := { s with host := rest }) h ((step_of_host_cons hh).symm.trans hs)

end Sys2Proof.Machine
end

section
/-! SUPPORT. What a command finds left in the engine from before it is never observed (10_state.md R25): a simulation
between two runs whose states differ only in what is dead. The proof of O56 stands at the end. -/

namespace Sys2Proof.Machine

/-! ## Memory up to `LEN` -/

/-- The same run of writes at index `n` keeps two memories the same up to its end, if they are the same below `n`. -/
theorem Memory.read_writeBytes_congr {m m' : Memory} (h : m.wf = true) (h' : m'.wf = true) {n : Nat}
    (hread : ∀ a, a < n → m.read a = m'.read a) (bs : List Byte) :
    ∀ a, a < n + bs.length → (m.writeBytes n bs).read a = (m'.writeBytes n bs).read a := by
  intro a ha
  by_cases hlt : a < n
  · rw [Memory.read_writeBytes_outside m bs (.inl hlt), Memory.read_writeBytes_outside m' bs (.inl hlt), hread a hlt]
  · obtain ⟨j, rfl⟩ := Nat.exists_eq_add_of_le (Nat.not_lt.mp hlt)
    have hj : j < bs.length := by omega
    rw [Memory.read_writeBytes_inside h n bs hj, Memory.read_writeBytes_inside h' n bs hj]

/-! ## Two states that differ in what can no longer be observed -/

/-- The latches of a command and the bytes of `W` below `LEN` are the same. -/
def SameInvocation (s t : State) : Prop :=
  s.nin = t.nin ∧ s.p = t.p ∧ s.len = t.len ∧ ∀ a, a < s.len → s.w.read a = t.w.read a

/-- In two states of one phase, what this phase and those after it can still read of the engine's registers and of `W`
is the same: everything that is not written anew before it is next read (10_state.md R26). -/
def SameLive (s t : State) : Prop :=
  match s.phase with
  | .idle => True
  | .copy => SameInvocation s t ∧ s.q = t.q
  | .pad => SameInvocation s t ∧ s.q = t.q
  | .cki => SameInvocation s t
  | .cks => SameInvocation s t ∧ s.c = t.c ∧ s.l = t.l ∧ s.i = t.i ∧ s.k = t.k
  | .cka => SameInvocation s t ∧ s.c = t.c
  | .xi => SameInvocation s t
  | .ldb => SameInvocation s t ∧ s.x = t.x ∧ s.i = t.i
  | .mix => SameInvocation s t ∧ s.x = t.x ∧ s.t = t.t ∧ s.i = t.i ∧ s.r = t.r ∧ s.k = t.k
  | .radj => SameInvocation s t ∧ s.x = t.x ∧ s.t = t.t ∧ s.i = t.i ∧ s.r = t.r ∧ s.k = t.k
  | .ext => SameInvocation s t ∧ s.x = t.x
  | .done => s.out = t.out
  | .fault => True

/-- The simulation relation: what the host sees is the same, and so is what it can come to see. -/
def Coupled (s t : State) : Prop := SamePublic s t ∧ SameLive s t

/-- An engine step reads nothing but what is live, so it leaves the same live state behind. -/
theorem sameLive_advance {s t : State} (hs : s.Inv) (ht : t.Inv) (hph : s.phase = t.phase) (hinp : s.inp = t.inp)
    (h : SameLive s t) : s.advance.phase = t.advance.phase ∧ SameLive s.advance t.advance := by
  obtain ⟨-, ⟨hws, -⟩, -, hps⟩ := hs
  obtain ⟨-, ⟨hwt, -⟩, -, -⟩ := ht
  have hlive := h
  unfold SameLive at h
  unfold State.phaseInv at hps
  unfold State.advance
  cases hph' : s.phase <;> simp only [← hph, hph'] at h hps ⊢
  case idle | done | fault => exact ⟨trivial, hlive⟩
  case copy =>
    obtain ⟨⟨hn, hp, hl, hread⟩, hq⟩ := h
    have hread' := Memory.read_writeBytes_congr hws hwt hread [s.inp.read s.q]
    simp only [← hn, ← hl, ← hq, ← hinp]
    split_ifs <;> exact ⟨trivial, ⟨rfl, hp, rfl, hread'⟩, rfl⟩
  case pad =>
    obtain ⟨⟨hn, hp, hl, hread⟩, hq⟩ := h
    have hread' := Memory.read_writeBytes_congr hws hwt hread [padByte s.p]
    simp only [← hp, ← hl, ← hq]
    split_ifs
    · exact ⟨trivial, hn, rfl, rfl, hread'⟩
    · exact ⟨trivial, ⟨hn, rfl, rfl, hread'⟩, rfl⟩
  case cki => exact ⟨trivial, h, rfl, rfl, rfl, rfl⟩
  case cks =>
    obtain ⟨⟨hn, hp, hlen, hread⟩, hc, hl, hi, hk⟩ := h
    obtain ⟨-, -, hk', hi'⟩ := hps
    have hbyte := hread (blockIndex s.i s.k) (by unfold blockIndex; omega)
    simp only [← hc, ← hl, ← hi, ← hk, ← hlen, ← hbyte]
    split_ifs
    · exact ⟨trivial, ⟨hn, hp, rfl, hread⟩, rfl, rfl, rfl, rfl⟩
    · exact ⟨trivial, ⟨hn, hp, rfl, hread⟩, rfl, rfl, rfl, rfl⟩
    · exact ⟨trivial, ⟨hn, hp, rfl, hread⟩, rfl⟩
  case cka =>
    obtain ⟨⟨hn, hp, hl, hread⟩, hc⟩ := h
    have hread' := Memory.read_writeBytes_congr hws hwt hread s.c.toList
    rw [Vector.length_toList] at hread'
    simp only [← hl, ← hc]
    exact ⟨trivial, hn, hp, rfl, hread'⟩
  case xi => exact ⟨trivial, h, rfl, rfl⟩
  case ldb =>
    obtain ⟨hsame, hx, hi⟩ := h
    obtain ⟨-, -, -, hread⟩ := id hsame
    obtain ⟨-, -, hi'⟩ := hps
    have hblock : s.w.readBytes (blockIndex s.i 0) 16 = t.w.readBytes (blockIndex s.i 0) 16 :=
      List.map_congr_left fun j hj => hread _ (by
        rw [List.mem_range] at hj
        unfold blockIndex
        omega)
    simp only [← hx, ← hi, ← hblock]
    exact ⟨trivial, hsame, rfl, rfl, rfl, rfl, rfl⟩
  case mix =>
    obtain ⟨hsame, hx, ht, hi, hr, hk⟩ := h
    simp only [← hx, ← ht, ← hk]
    split_ifs <;> exact ⟨trivial, hsame, rfl, rfl, hi, hr, rfl⟩
  case radj =>
    obtain ⟨⟨hn, hp, hlen, hread⟩, hx, ht, hi, hr, hk⟩ := h
    simp only [← ht, ← hi, ← hr, ← hlen]
    split_ifs
    · exact ⟨trivial, ⟨hn, hp, rfl, hread⟩, hx, rfl, rfl, rfl, hk⟩
    · exact ⟨trivial, ⟨hn, hp, rfl, hread⟩, hx, rfl⟩
    · exact ⟨trivial, ⟨hn, hp, rfl, hread⟩, hx⟩
  case ext =>
    obtain ⟨-, hx⟩ := h
    exact ⟨trivial, by rw [SameLive, hx]⟩

theorem coupled_advance {s t : State} (hs : s.Inv) (ht : t.Inv) (h : Coupled s t) : Coupled s.advance t.advance := by
  obtain ⟨⟨hph, herr, -, hinp, hcap, hhost, hrd, hd⟩, hlive⟩ := h
  obtain ⟨hph', hlive'⟩ := sameLive_advance hs ht hph hinp hlive
  obtain ⟨sinp, scap, serr, shost, srd, sd⟩ := advance_frame s
  obtain ⟨tinp, tcap, terr, thost, trd, td⟩ := advance_frame t
  refine ⟨⟨hph', ?_, fun hdone => ?_, ?_, ?_, ?_, ?_, ?_⟩, hlive'⟩
  · rw [serr, terr, herr]
  · rw [SameLive, hdone] at hlive'
    exact hlive'
  · rw [sinp, tinp, hinp]
  · rw [scap, tcap, hcap]
  · rw [shost, thost, hhost]
  · rw [srd, trd, hrd]
  · rw [sd, td, hd]

/-! ## The host's moves -/

/-- Answers that a host cannot tell apart now or later. -/
inductive CoupledResult : Result → Result → Prop
  | next {s t : State} (h : Coupled s t) : CoupledResult (.next s) (.next t)
  | fault (f : Fault) : CoupledResult (.fault f) (.fault f)
  | refused (r : Refusal) : CoupledResult (.refused r) (.refused r)

theorem samePublic_busy {s t : State} (h : SamePublic s t) : s.busy = t.busy := congrArg Phase.busy h.1

/-- A read of one byte does not tell two states apart that are publicly the same. -/
theorem hostReadByte_samePublic {s t : State} (h : SamePublic s t) (off : Nat) :
    (∃ e, hostReadByte s off = .error e ∧ hostReadByte t off = .error e) ∨
    ∃ b d, hostReadByte s off = .ok (b, { s with draws := d }) ∧ hostReadByte t off = .ok (b, { t with draws := d }) := by
  obtain ⟨hph, herr, hout, -, -, -, -, hd⟩ := h
  have hstatus : s.status = t.status := by rw [State.status, herr, hph, ← State.status]
  have hvalid : s.outValid = t.outValid := by rw [State.outValid, hph, ← State.outValid]
  unfold hostReadByte
  rw [← hstatus, ← hvalid]
  split_ifs with h₁ h₂ h₃ h₄ h₅
  · exact .inr ⟨_, s.draws, rfl, by rw [hd]⟩
  · exact .inr ⟨_, s.draws, rfl, by rw [hd]⟩
  · exact .inr ⟨_, s.draws, rfl, by rw [hd]⟩
  · exact .inr ⟨_, s.draws, rfl, by rw [hd, hout (of_decide_eq_true h₅)]⟩
  · exact .inr ⟨_, s.draws + 1, rfl, by rw [drawByte, hd]⟩
  · exact .inl ⟨_, rfl, rfl⟩

/-- Nor does a read transaction. -/
theorem hostRead_samePublic {s t : State} (h : SamePublic s t) (off n : Nat) :
    (∃ e, hostRead off n s = .error e ∧ hostRead off n t = .error e) ∨
    ∃ bs d, hostRead off n s = .ok (bs, { s with draws := d }) ∧ hostRead off n t = .ok (bs, { t with draws := d }) := by
  induction n generalizing off s t with
  | zero =>
    obtain ⟨-, -, -, -, -, -, -, hd⟩ := h
    exact .inr ⟨[], s.draws, rfl, by rw [hd]; rfl⟩
  | succ n ih =>
    obtain ⟨e, hs, ht⟩ | ⟨b, d, hs, ht⟩ := hostReadByte_samePublic h off
    · exact .inl ⟨e, by rw [hostRead, hs], by rw [hostRead, ht]⟩
    · have h' : SamePublic { s with draws := d } { t with draws := d } := by
        obtain ⟨hph, herr, hout, hinp, hcap, hhost, hrd, -⟩ := h
        exact ⟨hph, herr, hout, hinp, hcap, hhost, hrd, rfl⟩
      obtain ⟨e, hs', ht'⟩ | ⟨bs, d', hs', ht'⟩ := ih h' (off + 1)
      · exact .inl ⟨e, by simp only [hostRead, hs, hs'], by simp only [hostRead, ht, ht']⟩
      · exact .inr ⟨b :: bs, d', by simp only [hostRead, hs, hs'], by simp only [hostRead, ht, ht']⟩

theorem coupled_hosted {s t : State} (h : Coupled s t) (ms : List HostMove) (rd : List Byte) (d : Nat) :
    Coupled (s.hosted ms rd d) (t.hosted ms rd d) := by
  obtain ⟨⟨hph, herr, hout, hinp, hcap, -⟩, hlive⟩ := h
  exact ⟨⟨hph, herr, hout, hinp, hcap, rfl, rfl, rfl⟩, hlive⟩

/-- Where the engine stops being `BUSY` without a result, nothing in it is live. -/
theorem coupled_stopped {s t : State} (h : SamePublic s t) {ph : Phase} (hph : ph = .idle ∨ ph = .fault) (e : Err) :
    Coupled { s with phase := ph, err := e } { t with phase := ph, err := e } := by
  obtain ⟨-, -, -, hinp, hcap, hhost, hrd, hd⟩ := h
  obtain rfl | rfl := hph
  · exact ⟨⟨rfl, rfl, nofun, hinp, hcap, hhost, hrd, hd⟩, trivial⟩
  · exact ⟨⟨rfl, rfl, nofun, hinp, hcap, hhost, hrd, hd⟩, trivial⟩

theorem coupled_startInvocation {s t : State} (h : SamePublic s t) (n : Nat) :
    Coupled (startInvocation n (clearError s)) (startInvocation n (clearError t)) := by
  obtain ⟨-, -, -, hinp, hcap, hhost, hrd, hd⟩ := h
  refine ⟨⟨rfl, rfl, ?_, hinp, hcap, hhost, hrd, hd⟩, ?_⟩
  · rw [startInvocation_phase]
    split_ifs <;> nofun
  · rw [SameLive, startInvocation_phase]
    split_ifs <;> exact ⟨⟨rfl, rfl, rfl, nofun⟩, rfl⟩

theorem coupled_acceptDigest {s t : State} (h : SamePublic s t) (n : Nat) :
    Coupled (acceptDigest n s) (acceptDigest n t) := by
  have hfit : s.wFits (bufferNeed n) = t.wFits (bufferNeed n) := by
    obtain ⟨-, -, -, -, hcap, -⟩ := h
    rw [State.wFits, hcap, ← State.wFits]
  obtain ⟨hs, heqs⟩ | ⟨hs, heqs⟩ := acceptDigest_cases n s <;>
    obtain ⟨ht, heqt⟩ | ⟨ht, heqt⟩ := acceptDigest_cases n t
  · rw [heqs, heqt]
    exact coupled_startInvocation h n
  · simp [hfit, ht] at hs
  · simp [hfit, ht] at hs
  · rw [heqs, heqt]
    exact coupled_stopped h (.inr rfl) _

theorem coupled_hostWriteCmd {s t : State} (h : Coupled s t) (w : CommandWord) :
    CoupledResult (hostWriteCmd w s) (hostWriteCmd w t) := by
  obtain ⟨hpub, -⟩ := id h
  have hb := samePublic_busy hpub
  rw [hostWriteCmd_eq, hostWriteCmd_eq, ← hb]
  refine .next ?_
  split_ifs
  · exact h
  · exact coupled_acceptDigest hpub _
  · exact coupled_stopped hpub (.inr rfl) _

theorem coupled_hostStep {s t : State} (hs : s.Inv) (ht : t.Inv) (h : Coupled s t) (m : HostMove) :
    CoupledResult (hostStep m s) (hostStep m t) := by
  obtain ⟨hpub, hlive⟩ := id h
  cases m with
  | wait =>
    rw [hostStep, hostStep, engineStep_eq_advance hs, engineStep_eq_advance ht]
    exact .next (coupled_advance hs ht h)
  | reset o => exact .next (coupled_stopped hpub (.inl rfl) .none)
  | writeCmd w => exact coupled_hostWriteCmd h w
  | writeByte off b =>
    unfold hostStep hostWriteByte
    dsimp only
    split_ifs
    · exact .refused _
    · exact .next h
    · exact .refused _
  | read off n =>
    unfold hostStep hostReadMove
    obtain ⟨e, hs', ht'⟩ | ⟨bs, d, hs', ht'⟩ := hostRead_samePublic hpub off n <;> simp only [hs', ht']
    · exact .refused e
    · obtain ⟨-, -, -, -, -, hhost, -⟩ := hpub
      rw [← hhost]
      exact .next (coupled_hosted h s.host bs d)
  | present bytes =>
    unfold hostStep hostPresent
    dsimp only
    rw [← samePublic_busy hpub]
    split_ifs
    · exact .refused _
    · obtain ⟨hph, herr, hout, -, hcap, hhost, hrd, hd⟩ := hpub
      exact .next ⟨⟨hph, herr, hout, rfl, hcap, hhost, hrd, hd⟩, hlive⟩

theorem coupled_step {s t : State} (hs : s.Inv) (ht : t.Inv) (h : Coupled s t) : CoupledResult (step s) (step t) := by
  obtain ⟨⟨hph, herr, hout, hinp, hcap, hhost, hrd, hd⟩, hlive⟩ := id h
  cases hh : s.host with
  | nil =>
    rw [step_of_host_nil hh, step_of_host_nil (hhost ▸ hh), engineStep_eq_advance hs, engineStep_eq_advance ht]
    exact .next (coupled_advance hs ht h)
  | cons m rest =>
    rw [step_of_host_cons hh, step_of_host_cons (hhost ▸ hh)]
    exact coupled_hostStep (s := { s with host := rest }) (t := { t with host := rest }) hs ht
      ⟨⟨hph, herr, hout, hinp, hcap, rfl, hrd, hd⟩, hlive⟩ m

/-- The simulation: coupled states of the invariant answer coupled results after any number of steps. -/
theorem coupled_run {s t : State} (hs : s.Inv) (ht : t.Inv) (h : Coupled s t) (k : Nat) :
    CoupledResult (run k s) (run k t) := by
  induction k generalizing s t with
  | zero => exact .next h
  | succ k ih =>
    have hstep := coupled_step hs ht h
    rw [run, run]
    generalize hs' : step s = rs at hstep ⊢
    generalize ht' : step t = rt at hstep ⊢
    cases hstep with
    | next h' => exact ih (inv_step hs hs') (inv_step ht ht') h'
    | fault f => exact .fault f
    | refused r => exact .refused r

theorem samePublic_observe {s t : State} (h : SamePublic s t) : s.observe = t.observe := by
  obtain ⟨hph, herr, hout, -⟩ := h
  unfold State.observe State.status State.outValid
  rw [← hph, ← herr]
  by_cases hdone : s.phase = .done
  · rw [hout hdone]
  · simp [hdone]

theorem CoupledResult.indistinguishable {r r' : Result} (h : CoupledResult r r') : Indistinguishable r r' := by
  cases h with
  | next h =>
    obtain ⟨hpub, -⟩ := h
    obtain ⟨-, -, -, hinp, -, hhost, hrd, -⟩ := id hpub
    exact ⟨samePublic_observe hpub, hrd, hinp, hhost⟩
  | fault f => rfl
  | refused r => rfl

/-- Where the engine is not `BUSY`, only a valid `OUT` is live. -/
theorem coupled_of_samePublic {s t : State} (hb : s.busy = false) (h : SamePublic s t) : Coupled s t := by
  refine ⟨h, ?_⟩
  obtain ⟨-, -, hout, -⟩ := h
  unfold SameLive
  unfold State.busy at hb
  cases hph : s.phase <;> simp only [hph, Phase.busy, Bool.true_eq_false] at hb ⊢
  case done => exact hout hph

/-- Settles O56: a simulation. Publicly equal states that are not `BUSY` agree on everything live, and every step of the
invariant keeps that. -/
theorem leftoverStateIsNeverObservable : Obligations.LeftoverStateIsNeverObservable := by
  intro s t hs ht hb hpub k
  exact (coupled_run hs ht (coupled_of_samePublic hb hpub) k).indistinguishable

end Sys2Proof.Machine
end

section
/-! SUPPORT. The registers `STATUS` and `CMD` (10_state.md R19, R20). The proofs of O37 and O38 stand here. -/

namespace Sys2Proof.Machine

/-! ## `STATUS` -/

theorem status_stateField (s : State) : s.status.extractLsb' 0 2 = s.phase.stateField := by
  unfold State.status
  exact BitVec.extractLsb'_append_eq_right

theorem status_errField (s : State) : s.status.extractLsb' 2 2 = s.err.code := by
  unfold State.status
  rw [BitVec.extractLsb'_append_eq_of_le (by decide)]
  exact BitVec.extractLsb'_append_eq_right

theorem status_zeroField (s : State) : s.status.extractLsb' 4 4 = 0#4 := by
  unfold State.status
  rw [BitVec.extractLsb'_append_eq_of_le (by decide)]
  exact BitVec.extractLsb'_append_eq_left

/-- What each value of the field `STATE` says of `PHASE`. -/
theorem stateField_iff (ph : Phase) :
    (ph.stateField = 0#2 ↔ ph.code = 0#4) ∧
    (ph.stateField = 1#2 ↔ 1 ≤ ph.code.toNat ∧ ph.code.toNat ≤ 10) ∧
    (ph.stateField = 2#2 ↔ ph.code = 11#4) ∧
    (ph.stateField = 3#2 ↔ ph.code = 12#4) := by
  cases ph <;> decide

theorem stateField_fault_iff (ph : Phase) : ph.stateField = 3#2 ↔ ph = .fault := by
  cases ph <;> decide

/-- What each value of the field `ERR` says. -/
theorem errCode_iff (e : Err) :
    (e.code = 0#2 ↔ e = .none) ∧ (e.code = 1#2 ↔ e = .resourceExhausted) ∧ (e.code = 2#2 ↔ e = .illegalCommand) := by
  cases e <;> decide

theorem hostRead_status (s : State) : hostRead 0x08 1 s = .ok ([s.status], s) := rfl

/-- Settles O37: the fields are read off the concatenation, and `ERR` follows `PHASE` by the invariant. -/
theorem statusRegister : Obligations.StatusRegister := by
  refine ⟨rfl, fun s hinv => ?_⟩
  obtain ⟨-, -, herr, -⟩ := hinv
  obtain ⟨hidle, hbusy, hdone, hfault⟩ := stateField_iff s.phase
  obtain ⟨hnone, hres, hill⟩ := errCode_iff s.err
  rw [status_stateField, status_errField, status_zeroField]
  refine ⟨hidle, hbusy, hdone, hfault, hnone, hres, hill, ?_, rfl, fun rest hh => ?_, fun b rest hh => ?_⟩
  · exact hnone.not.trans (herr.trans (stateField_fault_iff s.phase).symm)
  · rw [step_of_host_cons hh, hostStep, hostReadMove, hostRead_status]
    rfl
  · rw [step_of_host_cons hh]
    rfl

/-! ## `CMD` -/

theorem commandOpcode_eq_iff (w : CommandWord) : commandOpcode w = 0x01#8 ↔ w.toNat % 256 = 1 := by
  rw [← BitVec.toNat_inj, commandOpcode, BitVec.extractLsb'_toNat, Nat.shiftRight_zero]
  rfl

theorem commandLen_eq (w : CommandWord) : commandLen w = w.toNat / 256 := by
  have := w.isLt
  rw [commandLen, BitVec.extractLsb'_toNat, Nat.shiftRight_eq_div_pow]
  omega

theorem busy_eq_false_iff (s : State) : s.busy = false ↔ s.phase = .idle ∨ s.phase = .done ∨ s.phase = .fault := by
  unfold State.busy
  cases s.phase <;> decide

/-- Every byte of `CMD` reads 0. -/
theorem hostRead_cmd (s : State) {off n : Nat} (h : off + n ≤ 8) :
    hostRead off n s = .ok (List.replicate n 0x00#8, s) := by
  induction n generalizing off with
  | zero => rfl
  | succ n ih =>
    have hbyte : hostReadByte s off = .ok (0x00#8, s) := if_pos (by omega)
    rw [hostRead, hbyte]
    simp only [ih (off := off + 1) (by omega), List.replicate_succ]

/-- A `CMD` write to an engine that is not `BUSY`, by the number its word is. -/
theorem step_writeCmd_of_not_busy {s : State} {w : CommandWord} {rest : List HostMove} (hh : s.host = .writeCmd w :: rest)
    (hb : s.busy = false) :
    step s = .next (if w.toNat % 256 = 1 then acceptDigest (w.toNat / 256) { s with host := rest }
      else acceptIllegal { s with host := rest }) := by
  have hb' : ({ s with host := rest } : State).busy = false := hb
  rw [step_of_host_cons hh, hostStep, hostWriteCmd_eq, commandLen_eq]
  simp only [hb', Bool.false_eq_true, if_false, commandOpcode_eq_iff]

theorem acceptDigest_of_fits {s : State} {n : Nat} (h : s.wFits (bufferNeed n) = true) :
    acceptDigest n s = startInvocation n (clearError s) :=
  if_pos h

theorem acceptDigest_of_not_fits {s : State} {n : Nat} (h : ¬ s.wFits (bufferNeed n) = true) :
    acceptDigest n s = raiseError .resourceExhausted (clearError s) :=
  if_neg h

/-- Settles O38: a write to `CMD` by `BUSY`, by its opcode and by whether its padded input fits `W`. -/
theorem commandPort : Obligations.CommandPort := by
  refine ⟨fun s w rest hh => ⟨fun hstop => ?_, fun hrun => ?_⟩, fun s off n rest hle hh => ?_⟩
  · have hstep := step_writeCmd_of_not_busy hh ((busy_eq_false_iff s).mpr hstop)
    have hfits := wFits_iff (s := { s with host := rest }) (n := bufferNeed (w.toNat / 256))
    refine ⟨fun hop => ?_, fun hop hcap => ?_, fun hop hcap => ?_⟩
    · rw [hstep, if_neg hop]
      rfl
    · obtain ⟨cap, hcap, hlt⟩ := hcap
      rw [hstep, if_pos hop, acceptDigest_of_not_fits fun h => Nat.not_le.mpr hlt (hfits.mp h cap hcap)]
      rfl
    · rw [hstep, if_pos hop, acceptDigest_of_fits (hfits.mpr hcap)]
      rfl
  · have hb : s.busy = true := (Bool.not_eq_false _).mp ((busy_eq_false_iff s).not.mpr hrun)
    refine ⟨hb, ?_⟩
    rw [step_of_host_cons hh, hostStep, hostWriteCmd_eq]
    exact congrArg _ (if_pos hb)
  · rw [step_of_host_cons hh, hostStep, hostReadMove, hostRead_cmd _ hle]

end Sys2Proof.Machine
end

section
/-! SUPPORT. The memories (20_memory.md R31, R37): where accesses go in the states of the invariant, and who has no
write path to what. The proofs of O34 and O43 stand here. -/

namespace Sys2Proof.Machine

/-! ## Every access is in bounds -/

/-- The latches of an accepted command hold throughout `BUSY`. -/
theorem accepted_of_busy {s : State} (hp : s.phaseInv) (hb : s.busy = true) : s.accepted := by
  unfold State.phaseInv at hp
  unfold State.busy at hb
  cases hph : s.phase <;> simp only [hph] at hp hb
  case idle | done | fault => cases hb
  case copy | pad | cki | cks | cka | xi | ldb | mix | radj | ext => exact hp.left

/-- `NIN + P + 16 <= W_CAP` for an accepted command (44_digest_command.md R82). -/
theorem accepted_capacity {s : State} (h : s.accepted) {cap : Nat} (hcap : s.wCap = some cap) :
    s.nin + s.p + 16 ≤ cap :=
  wFits_iff.mp (accepted_fits h le_rfl) cap hcap

/-- No move of the host ends in a fault of the model in a state of the invariant. -/
theorem hostStep_ne_fault {s : State} (h : s.Inv) (m : HostMove) (f : Fault) : hostStep m s ≠ .fault f := by
  cases m with
  | wait =>
    rw [hostStep, engineStep_eq_advance h]
    nofun
  | reset o => nofun
  | writeCmd w =>
    rw [hostStep, hostWriteCmd_eq]
    nofun
  | writeByte off b =>
    simp only [hostStep, hostWriteByte]
    split_ifs <;> nofun
  | read off n =>
    simp only [hostStep, hostReadMove]
    split <;> nofun
  | present bytes =>
    simp only [hostStep, hostPresent]
    split_ifs <;> nofun

/-- No step does: the engine's step completes, and a move of the host has no fault. -/
theorem step_ne_fault {s : State} (h : s.Inv) (f : Fault) : step s ≠ .fault f := by
  cases hh : s.host with
  | nil =>
    rw [step_of_host_nil hh, engineStep_eq_advance h]
    nofun
  | cons m rest =>
    rw [step_of_host_cons hh]
    exact hostStep_ne_fault (s := { s with host := rest }) h m f

/-- Settles O34: the engine's step completes and the host has no fault to raise; the bounds are where the invariant has
the counters. -/
theorem everyAccessInBounds : Obligations.EveryAccessInBounds := by
  intro s hinv
  obtain ⟨-, -, -, hp⟩ := id hinv
  refine ⟨step_ne_fault hinv, fun hb cap => accepted_capacity (accepted_of_busy hp hb), ?_, ?_, ?_, ?_⟩ <;>
    unfold State.phaseInv at hp
  · rintro (hph | hph) <;> rw [hph] at hp <;> obtain ⟨-, hlen, hq⟩ := hp <;> omega
  · intro hph
    rw [hph] at hp
    obtain ⟨-, hlen⟩ := hp
    omega
  · intro hph
    rw [hph] at hp
    obtain ⟨-, hlen, hk, hi⟩ := hp
    omega
  · intro hph j hj
    rw [hph] at hp
    obtain ⟨-, hlen, hi⟩ := hp
    omega

/-! ## Protection is structural -/

/-- `W`, `X`, `C`, `L` and `T` of the first state are those of the second. -/
def SamePrivate (t s : State) : Prop := t.w = s.w ∧ t.x = s.x ∧ t.c = s.c ∧ t.l = s.l ∧ t.t = s.t

theorem SamePrivate.refl (s : State) : SamePrivate s s := ⟨rfl, rfl, rfl, rfl, rfl⟩

/-- Acceptance writes latches, counters, `PHASE` and `ERR` only. -/
theorem samePrivate_acceptDigest (n : Nat) (s : State) : SamePrivate (acceptDigest n s) s := by
  obtain ⟨-, heq⟩ | ⟨-, heq⟩ := acceptDigest_cases n s <;> rw [heq] <;> exact .refl s

/-- No transaction of the host writes `W`, `X`, `C`, `L` or `T` (20_memory.md R37). -/
theorem samePrivate_hostStep {s t : State} {m : HostMove} (hw : m ≠ .wait) (hr : ∀ o, m ≠ .reset o)
    (hs : hostStep m s = .next t) : SamePrivate t s := by
  cases m with
  | wait => exact absurd rfl hw
  | reset o => exact absurd rfl (hr o)
  | writeCmd w =>
    cases (hostWriteCmd_eq w s).symm.trans hs
    split_ifs
    · exact .refl s
    · exact samePrivate_acceptDigest _ s
    · exact .refl s
  | writeByte off b =>
    simp only [hostStep, hostWriteByte] at hs
    split_ifs at hs
    cases hs
    exact .refl s
  | read off n =>
    obtain ⟨rd, d, rfl⟩ := hostReadMove_next hs
    exact .refl s
  | present bytes =>
    simp only [hostStep, hostPresent] at hs
    split_ifs at hs
    cases hs
    exact .refl s

/-- No instruction writes `IN` (20_memory.md R29). -/
theorem exec_inp {i : Instr} {s t : State} (hs : exec i s = .next t) : t.inp = s.inp := by
  cases i with
  | digest n =>
    rw [execDigest_next hs]
    split_ifs
    · rfl
    · obtain ⟨-, heq⟩ | ⟨-, heq⟩ := acceptDigest_cases n s <;> rw [heq] <;> rfl
  | copyb => obtain ⟨-, -, ⟨-, rfl⟩ | ⟨-, rfl⟩⟩ := execCopyb_next hs <;> rfl
  | padb => obtain ⟨-, ⟨-, rfl⟩ | ⟨-, rfl⟩⟩ := execPadb_next hs <;> rfl
  | ckinit => cases hs; rfl
  | ckstep =>
    obtain ⟨-, -, rfl⟩ := execCkstep_next hs
    rw [nextCkstep_eq]
  | ckapp => obtain ⟨-, rfl⟩ := execCkapp_next hs; rfl
  | xinit => cases hs; rfl
  | ldblk => obtain ⟨-, rfl⟩ := execLdblk_next hs; rfl
  | mix =>
    obtain ⟨-, rfl⟩ := execMix_next hs
    rw [nextMix_eq]
  | radj => obtain ⟨-, rfl⟩ | ⟨-, -, rfl⟩ | ⟨-, -, rfl⟩ := execRadj_next hs <;> rfl
  | extract => cases hs; rfl

/-- Settles O43: host moves keep `W`, `X`, `C`, `L` and `T`, a host read answers the same in publicly equal states
(`hostRead_samePublic`), and each instruction keeps `IN`. -/
theorem protectionIsStructural : Obligations.ProtectionIsStructural := by
  refine ⟨fun s t m rest hh hw hr hs => ?_, fun s t off n hpub => ?_, fun i s t hs => exec_inp hs⟩
  · exact samePrivate_hostStep (s := { s with host := rest }) hw hr ((step_of_host_cons hh).symm.trans hs)
  · obtain ⟨e, hs, ht⟩ | ⟨bs, d, hs, ht⟩ := hostRead_samePublic hpub off n <;> rw [hs, ht]

end Sys2Proof.Machine
end

section
/-! PROOF. Decoding is total on command words (O5; 30_encoding.md R45, R49): the decoder's two outcomes, its fields read
as the quotient and the remainder of the word by 256. -/

namespace Sys2Proof.Machine

/-- The opcode field is the word modulo 256 (30_encoding.md R45). -/
theorem commandOpcode_eq (w : CommandWord) : commandOpcode w = BitVec.ofNat 8 (w.toNat % 256) := by
  apply BitVec.eq_of_toNat_eq
  rw [commandOpcode, BitVec.extractLsb'_toNat, Nat.shiftRight_zero, BitVec.toNat_ofNat]
  exact (Nat.mod_mod _ _).symm

/-- Settles O5: of the decoder's two outcomes (`decodeCommand_cases`) the opcode picks one, and each field is the
quotient or the remainder of the word. -/
theorem commandDecodingIsTotal : Obligations.CommandDecodingIsTotal := by
  intro w
  refine ⟨commandLen_eq w ▸ commandLen_lt w, ?_⟩
  rw [ne_eq, ← commandOpcode_eq_iff, ← commandLen_eq, ← commandOpcode_eq]
  obtain ⟨hop, hd⟩ | ⟨hop, hd⟩ := decodeCommand_cases w
  · exact ⟨fun _ => hd, fun hne => absurd hop hne⟩
  · exact ⟨fun heq => absurd heq hop, fun _ => hd⟩

end Sys2Proof.Machine
end

section
/-! PROOF. `SUB` reads the table's entry at the whole byte (O7; 40_sbox.md R57): row `b / 16` and column `b % 16` of
rows of 16 bytes is entry `b` of the rows laid end to end. -/

namespace Sys2Proof.Machine

/-- The row-major layout: among rows of one width, entry `i` stands in row `i / n` at column `i % n`. -/
theorem getElem?_flatten_of_length_eq {α : Type} {n : Nat} {rows : List (List α)}
    (hlen : ∀ r ∈ rows, r.length = n) (hpos : 0 < n) (i : Nat) :
    rows.flatten[i]? = rows[i / n]?.bind (·[i % n]?) := by
  induction rows generalizing i with
  | nil => rfl
  | cons r rows ih =>
    obtain ⟨hr, hrows⟩ := List.forall_mem_cons.mp hlen
    rw [List.flatten_cons]
    obtain hi | hi := Nat.lt_or_ge i n
    · rw [List.getElem?_append_left (hr.symm ▸ hi), Nat.div_eq_of_lt hi, Nat.mod_eq_of_lt hi]
      rfl
    · rw [List.getElem?_append_right (hr.symm ▸ hi), hr, ih hrows, Nat.mod_eq_sub_mod hi,
        Nat.div_eq_sub_div hpos hi]
      rfl

/-- The table's rows hold 16 entries each (40_sbox.md R58). -/
theorem length_of_mem_sRows : ∀ r ∈ sRows, r.length = 16 := by decide

/-- The table has 256 entries (40_sbox.md R54). -/
theorem length_sRows_flatten : sRows.flatten.length = 256 := by
  rw [List.length_flatten]
  rfl

/-- The index of `SUB` is the whole byte (40_sbox.md R57): its row and its column are both inside the table, so neither
default of `sub` is read. -/
theorem sRows_flatten_getElem? (b : Byte) : sRows.flatten[b.toNat]? = some (sub b) := by
  have hrow : b.toNat / 16 < sRows.length := Nat.div_lt_of_lt_mul b.isLt
  have hcol : b.toNat % 16 < sRows[b.toNat / 16].length := by
    rw [length_of_mem_sRows _ (List.getElem_mem hrow)]
    exact Nat.mod_lt _ (by decide)
  rw [getElem?_flatten_of_length_eq length_of_mem_sRows (by decide), sub, List.getD_eq_getElem _ _ hrow,
    List.getD_eq_getElem _ _ hcol, List.getElem?_eq_getElem hrow, Option.bind_some, List.getElem?_eq_getElem hcol]

/-- No index is a fixed point of the table, read off its 256 entries. -/
theorem sub_ne_self : ∀ b : Byte, sub b ≠ b := by decide

/-- The table's one zero entry stands at `0xDD`, read off its 256 entries. -/
theorem sub_eq_zero_iff : ∀ b : Byte, sub b = 0x00#8 ↔ b = 0xdd#8 := by decide

/-- Settles O7: `SUB`'s row and column are the row-major place of the byte (`sRows_flatten_getElem?`); the corner cases
are read off the table. -/
theorem subReadsTheTableEntry : Obligations.SubReadsTheTableEntry :=
  ⟨length_sRows_flatten, sRows_flatten_getElem?, rfl, rfl, rfl, sub_ne_self, sub_eq_zero_iff⟩

end Sys2Proof.Machine
end

section
/-! PROOF. The properties of `Pad` and its single application by the engine (O44; 41_padder.md R61 to R64): the last
byte of a padded list is its pad count, and an engine past `PAD` does not return to the padder on its own. -/

namespace Sys2Proof.Machine

/-! ## The function `Pad` -/

/-- The padded length is the next multiple of 16. -/
theorem padded_length_eq_mul (m : List Byte) : (padded m).length = 16 * (m.length / 16 + 1) := by
  rw [padded_length, add_padCount]

/-- A whole number of blocks is padded by one block of `0x10`. -/
theorem padded_of_mod_eq_zero {m : List Byte} (h : m.length % 16 = 0) :
    padded m = m ++ List.replicate 16 0x10#8 := by
  have hp : padCount m.length = 16 := by simp [padCount, h]
  rw [padded, hp]
  rfl

theorem padded_getLast? (m : List Byte) : (padded m).getLast? = some (padByte (padCount m.length)) := by
  have hpos : padCount m.length ≠ 0 := Nat.one_le_iff_ne_zero.mp (padCount_pos m.length)
  simp [padded, List.getLast?_replicate, hpos]

/-- A pad count fits its byte. -/
theorem padByte_padCount_toNat (n : Nat) : (padByte (padCount n)).toNat = padCount n := by
  rw [padByte, BitVec.toNat_ofNat]
  exact Nat.mod_eq_of_lt ((padCount_le n).trans_lt (by decide))

/-- A padded list ends in its own pad count, so what was padded can be read back. -/
theorem padded_injective : Function.Injective padded := by
  intro m m' h
  have hlast : padByte (padCount m.length) = padByte (padCount m'.length) :=
    Option.some.inj (by rw [← padded_getLast?, h, padded_getLast?])
  have hcount : padCount m.length = padCount m'.length := by
    rw [← padByte_padCount_toNat, hlast, padByte_padCount_toNat]
  exact (List.append_inj' h (by rw [List.length_replicate, List.length_replicate, hcount])).1

/-! ## The engine past the padder -/

/-- The engine is in neither phase of the padder. -/
def State.pastPadder (s : State) : Prop := s.phase ≠ .copy ∧ s.phase ≠ .pad

/-- No engine step enters the padder from outside it: acceptance alone does. -/
theorem pastPadder_advance {s : State} (h : s.pastPadder) : s.advance.pastPadder := by
  obtain ⟨hcopy, hpad⟩ := h
  unfold State.pastPadder State.advance
  cases hph : s.phase <;> simp only
  case copy => exact absurd hph hcopy
  case pad => exact absurd hph hpad
  case cks | mix | radj => split_ifs <;> simp
  all_goals simp [hph]

/-- What a step executes is the operation of its phase. -/
theorem issued_of_mem_executed {s : State} {item : TraceItem} (h : item ∈ executed s) : issued s = some item.1 := by
  unfold executed at h
  split at h
  · rename_i i _ hi
    rw [List.mem_singleton.mp h, hi]
  · cases h

theorem issued_copyb_iff {s : State} : issued s = some .copyb ↔ s.phase = .copy := by
  rw [issued_eq]
  cases s.phase <;> simp

theorem issued_padb_iff {s : State} : issued s = some .padb ↔ s.phase = .pad := by
  rw [issued_eq]
  cases s.phase <;> simp

theorem executed_pastPadder {s : State} (h : s.pastPadder) {item : TraceItem} (hmem : item ∈ executed s) :
    item.1 ≠ .copyb ∧ item.1 ≠ .padb := by
  obtain ⟨hcopy, hpad⟩ := h
  have hi := issued_of_mem_executed hmem
  exact ⟨fun hc => hcopy (issued_copyb_iff.mp (hc ▸ hi)), fun hp => hpad (issued_padb_iff.mp (hp ▸ hi))⟩

/-- An engine past the padder, left alone by its host, executes neither of the padder's operations again. -/
theorem trace_pastPadder {k : Nat} {s : State} (hinv : s.Inv) (hh : s.host = []) (h : s.pastPadder) :
    ∀ item ∈ trace k s, item.1 ≠ .copyb ∧ item.1 ≠ .padb := by
  induction k generalizing s with
  | zero => nofun
  | succ k ih =>
    intro item hmem
    obtain ⟨-, -, -, hhost, -⟩ := advance_frame s
    rw [trace_succ ((step_of_host_nil hh).trans (engineStep_eq_advance hinv)), List.mem_append] at hmem
    obtain hnow | hlater := hmem
    · exact executed_pastPadder h hnow
    · exact ih (inv_advance hinv) (hhost.trans hh) (pastPadder_advance h) item hlater

/-- The invariant holds along every run. -/
theorem inv_run {n : Nat} {s t : State} (h : s.Inv) (hr : run n s = .next t) : t.Inv := by
  induction n generalizing s with
  | zero =>
    cases hr
    exact h
  | succ n ih =>
    obtain ⟨u, hstep, hrest⟩ := run_first hr
    exact ih (inv_step h hstep) hrest

/-! ## `Pad` exactly once -/

/-- An accepted command before its first operation starts in `COPY` exactly when it has input to copy. -/
theorem padder_start {s : State} (hinv : s.Inv) (hph : s.phase = .copy ∨ s.phase = .pad ∧ s.nin = 0) :
    s.accepted ∧ s.phase = if s.nin > 0 then .copy else .pad := by
  obtain ⟨-, -, -, hp⟩ := hinv
  unfold State.phaseInv at hp
  obtain hcopy | ⟨hpad, hn⟩ := hph
  · rw [hcopy] at hp
    obtain ⟨ha, -, hq⟩ := hp
    exact ⟨ha, hcopy.trans (if_pos (Nat.zero_lt_of_lt hq)).symm⟩
  · rw [hpad] at hp
    obtain ⟨ha, -⟩ := hp
    exact ⟨ha, hpad.trans (if_neg (hn ▸ Nat.lt_irrefl 0)).symm⟩

/-- Settles O44: the clauses about `Pad` from its length and its last byte; the engine's from its padder run and from
the phases after it. -/
theorem paddingProperties : Obligations.PaddingProperties := by
  refine ⟨fun m => ?_, fun m => ⟨padded_length m, padCount_pos m.length, padCount_le m.length⟩, rfl, fun m => ?_,
    padded_injective, fun s hinv hh hl hq hph => ?_⟩
  · rw [padded_length_eq_mul]
    refine ⟨?_, ?_, fun len hmod hlt => ?_⟩ <;> omega
  · rw [padded_of_mod_eq_zero (by rw [padded_length_eq_mul, Nat.mul_mod_right])]
    simp
  · obtain ⟨ha, hstart⟩ := padder_start hinv hph
    obtain ⟨-, hp, -⟩ := id ha
    have hrun := (padder_run hstart hl hq hp (accepted_fits ha (by omega))).run_trace hh
    have hops : (traceLoad s.nin ++ tracePad s.p).length = s.nin + s.p := by simp [traceLoad, tracePad]
    rw [hops] at hrun
    obtain ⟨hnext, htrace⟩ := hrun
    refine ⟨_, hnext, rfl, rfl, ?_, htrace, fun k => trace_pastPadder (inv_run hinv hnext) hh ⟨nofun, nofun⟩⟩
    have hlen : (padded (s.inp.readBytes 0 s.nin)).length = s.nin + s.p := by
      rw [padded_length, Memory.readBytes_length, hp]
    obtain ⟨-, ⟨hwf, -⟩, -, -⟩ := hinv
    exact buffer_of_writeBytes hwf rfl hlen.symm

end Sys2Proof.Machine
end

section
/-! PROOF. The consequences of the checksum's assignment (O45; 42_checksum.md R66): every register of `C` is written
once per block and read by none, so a block's result depends on what entered it through `L` alone. -/

namespace Sys2Proof.Machine

/-- The rule for two folds in step: a relation of the two values that holds at first, and that each turn `k < n` takes
from `k` to `k + 1`, holds after `n` turns. -/
theorem foldl_range_rel {α β : Type} {f : α → Nat → α} {g : β → Nat → β} (R : Nat → α → β → Prop) {n : Nat}
    (turn : ∀ k a b, k < n → R k a b → R (k + 1) (f a k) (g b k)) {a : α} {b : β} (h : R 0 a b) :
    R n ((List.range n).foldl f a) ((List.range n).foldl g b) := by
  induction n with
  | zero => exact h
  | succ n ih =>
    rw [List.range_succ, List.foldl_concat, List.foldl_concat]
    exact turn n _ _ n.lt_succ_self (ih fun k a b hk => turn k a b (hk.trans n.lt_succ_self))

/-! ## One block -/

/-- A block of `Ck` reads only its own sixteen bytes. -/
theorem ckBlock_congr {b b' : List Byte} {i i' : Nat} (acc : RegFile 16 × Byte)
    (h : ∀ j, j < 16 → b.getD (blockIndex i j) 0x00#8 = b'.getD (blockIndex i' j) 0x00#8) :
    ckBlock b acc i = ckBlock b' acc i' :=
  List.foldl_ext _ _ _ fun _ j hj => by rw [ckByte, ckByte, h j (List.mem_range.mp hj)]

/-- Two accumulators agree on `L` and on the registers of `C` below `k`. -/
def AgreeBelow (k : Nat) (acc acc' : RegFile 16 × Byte) : Prop :=
  acc.2 = acc'.2 ∧ ∀ j, j < k → regRead acc.1 j = regRead acc'.1 j

/-- Position `k` assigns `C[k]` from `L` alone, whatever `C[k]` held. -/
theorem agreeBelow_ckByte (b : List Byte) (i : Nat) {k : Nat} {acc acc' : RegFile 16 × Byte} (hk : k < 16)
    (h : AgreeBelow k acc acc') : AgreeBelow (k + 1) (ckByte b i acc k) (ckByte b i acc' k) := by
  obtain ⟨hl, hc⟩ := h
  rw [ckByte, ckByte, hl]
  refine ⟨rfl, fun j hj => ?_⟩
  obtain rfl | hne := eq_or_ne j k
  · rw [regRead_regWrite_same _ _ hk, regRead_regWrite_same _ _ hk]
  · rw [regRead_regWrite_ne _ _ hne, regRead_regWrite_ne _ _ hne, hc j (by omega)]

/-- A block of `Ck` overwrites the whole of `C` (42_checksum.md R66 (a)). -/
theorem ckBlock_overwrites (b : List Byte) (c c' : RegFile 16) (l : Byte) (i : Nat) :
    ckBlock b (c, l) i = ckBlock b (c', l) i := by
  have hagree : AgreeBelow 16 (ckBlock b (c, l) i) (ckBlock b (c', l) i) :=
    foldl_range_rel AgreeBelow (fun _ _ _ => agreeBelow_ckByte b i) ⟨rfl, nofun⟩
  obtain ⟨hl, hc⟩ := hagree
  exact Prod.ext (regFile_ext hc) hl

/-- The last position of a block gives `C[15]` and `L` the same byte (42_checksum.md R66 (c)). -/
theorem regRead_ckBlock_last (b : List Byte) (acc : RegFile 16 × Byte) (i : Nat) :
    regRead (ckBlock b acc i).1 15 = (ckBlock b acc i).2 := by
  rw [ckBlock, List.range_succ, List.foldl_concat]
  exact regRead_regWrite_same _ _ (by decide)

/-! ## The last block of a buffer -/

/-- The run over a buffer of `n + 1` blocks is that of its first `n` and then block `n`. -/
theorem ckRun_eq_ckBlock {b : List Byte} {n : Nat} (h : b.length / 16 = n + 1) :
    ckRun b = ckBlock b ((List.range n).foldl (ckBlock b) (regZero 16, 0x00#8)) n := by
  rw [ckRun, h, List.range_succ, List.foldl_concat]

/-- The run over a buffer ends with its last block, from what the earlier blocks leave. -/
theorem ckRun_append {earlier last : List Byte} (he : earlier.length % 16 = 0) (hl : last.length = 16) :
    ckRun (earlier ++ last) = ckBlock last (ckRun earlier) 0 := by
  obtain ⟨n, hn⟩ := Nat.dvd_of_mod_eq_zero he
  have hblocks : (earlier ++ last).length / 16 = n + 1 := by
    rw [List.length_append]
    omega
  have hearlier : (List.range n).foldl (ckBlock (earlier ++ last)) (regZero 16, 0x00#8) = ckRun earlier := by
    rw [ckRun, show earlier.length / 16 = n by omega]
    refine List.foldl_ext _ _ _ fun acc i hi => ckBlock_congr acc fun j hj => List.getD_append _ _ _ _ ?_
    have hi := List.mem_range.mp hi
    unfold blockIndex
    omega
  rw [ckRun_eq_ckBlock hblocks, hearlier]
  refine ckBlock_congr _ fun j _ => ?_
  rw [List.getD_append_right _ _ _ _ (hn ▸ Nat.le_add_right _ _), hn]
  simp [blockIndex]

/-- `Ck` is the run of the last block alone, from the `L` that enters it (42_checksum.md R66 (b)). -/
theorem checksum_append {earlier last : List Byte} (c : RegFile 16) (he : earlier.length % 16 = 0)
    (hl : last.length = 16) : checksum (earlier ++ last) = (ckBlock last (c, (ckRun earlier).2) 0).1 := by
  rw [checksum, ckRun_append he hl, ckBlock_overwrites last c (ckRun earlier).1]

theorem regRead_checksum_last {b : List Byte} (hmod : b.length % 16 = 0) (hpos : 0 < b.length) :
    regRead (checksum b) 15 = (ckRun b).2 := by
  obtain ⟨n, hn⟩ : ∃ n, b.length / 16 = n + 1 := Nat.exists_eq_add_one.mpr (by omega)
  rw [checksum, ckRun_eq_ckBlock hn, regRead_ckBlock_last]

/-! ## The exclusive-or form (42_checksum.md R66 (d)) -/

/-- One byte of the form that accumulates by exclusive or. -/
def xorByte (b : List Byte) (acc : RegFile 16 × Byte) (idx : Nat) : RegFile 16 × Byte :=
  let v := regRead acc.1 (idx % 16) ^^^ sub (b.getD idx 0x00#8 ^^^ acc.2)
  (regWrite acc.1 (idx % 16) v, v)

/-- The form that accumulates by exclusive or, over the whole buffer. -/
def xorRun (b : List Byte) : RegFile 16 × Byte := (List.range b.length).foldl (xorByte b) (regZero 16, 0x00#8)

/-- Over a register of `C` that still holds zero, the two forms do the same. -/
theorem ckByte_eq_xorByte (b : List Byte) {k : Nat} {acc : RegFile 16 × Byte} (hk : k < 16)
    (hz : regRead acc.1 k = 0x00#8) : ckByte b 0 acc k = xorByte b acc k := by
  simp [ckByte, xorByte, blockIndex, Nat.mod_eq_of_lt hk, hz]

/-- The accumulators of the two forms are the same, and the registers of `C` from `k` on are still zero. -/
def SameZeroFrom (k : Nat) (acc acc' : RegFile 16 × Byte) : Prop :=
  acc = acc' ∧ ∀ j, k ≤ j → regRead acc.1 j = 0x00#8

theorem sameZeroFrom_ckByte_xorByte (b : List Byte) {k : Nat} {acc acc' : RegFile 16 × Byte} (hk : k < 16)
    (h : SameZeroFrom k acc acc') : SameZeroFrom (k + 1) (ckByte b 0 acc k) (xorByte b acc' k) := by
  obtain ⟨rfl, hz⟩ := h
  refine ⟨ckByte_eq_xorByte b hk (hz k le_rfl), fun j hj => ?_⟩
  rw [ckByte, regRead_regWrite_ne _ _ (by omega), hz j (by omega)]

/-- In the first block every register is still zero when its turn comes, so one block does not tell the forms apart. -/
theorem ckRun_eq_xorRun {b : List Byte} (hb : b.length = 16) : ckRun b = xorRun b := by
  have hsame : SameZeroFrom 16 (ckBlock b (regZero 16, 0x00#8) 0) (xorRun b) := by
    rw [xorRun, hb]
    exact foldl_range_rel SameZeroFrom (fun _ _ _ => sameZeroFrom_ckByte_xorByte b)
      ⟨rfl, fun j _ => regRead_regZero 16 j⟩
  obtain ⟨heq, -⟩ := hsame
  rw [← heq, ckRun_eq_ckBlock (n := 0) (by rw [hb]), List.range_zero, List.foldl_nil]

/-- Two blocks of zeros tell the forms apart: the second block finds `C` written. -/
theorem checksum_zeros_ne_xorRun : checksum (List.replicate 32 0x00#8) ≠ (xorRun (List.replicate 32 0x00#8)).1 := by
  decide +kernel

/-- Settles O45: the first two clauses from `checksum_append`, since a block overwrites `C`; the exclusive-or form is
`xorRun`. -/
theorem checksumProperties : Obligations.ChecksumProperties :=
  ⟨fun _ _ c => checksum_append c,
    fun _ _ _ he he' hl h => by rw [checksum_append (regZero 16) he hl, checksum_append (regZero 16) he' hl, h],
    fun _ => regRead_checksum_last,
    fun _ hb => congrArg Prod.fst (ckRun_eq_xorRun hb),
    ⟨_, List.length_replicate, checksum_zeros_ne_xorRun⟩⟩

end Sys2Proof.Machine
end

section
/-! PROOF. The results of `LDBLK`, `MIX` and `RADJ` (O24, O25, O26; 43_compressor.md R74 to R76), and the first sixteen
`MIX` steps of the first block (O51; R78): over lanes of zeros, each position puts one more iterate of `SUB` into `X`
and `T`. -/

namespace Sys2Proof.Machine

/-! ## `LDBLK` -/

/-- `X[0..15]` is kept. -/
theorem regRead_loadBlock_kept (x : RegFile 48) (block : List Byte) {j : Nat} (hj : j < 16) :
    regRead (loadBlock x block) j = regRead x j := by
  rw [loadBlock, regRead_regBuild _ (by omega), if_pos hj]

/-- `X[16..31]` is the block. -/
theorem regRead_loadBlock_block (x : RegFile 48) (block : List Byte) {j : Nat} (hj : j < 16) :
    regRead (loadBlock x block) (16 + j) = block.getD j 0x00#8 := by
  rw [loadBlock, regRead_regBuild _ (by omega), if_neg (by omega), if_pos (by omega), Nat.add_sub_cancel_left]

/-- `X[32..47]` is the exclusive-or of the two. -/
theorem regRead_loadBlock_xor (x : RegFile 48) (block : List Byte) {j : Nat} (hj : j < 16) :
    regRead (loadBlock x block) (32 + j) = regRead x j ^^^ block.getD j 0x00#8 := by
  rw [loadBlock, regRead_regBuild _ (by omega), if_neg (by omega), if_neg (by omega), Nat.add_sub_cancel_left]

/-- Of the old `X` only `X[0..15]` is read. -/
theorem loadBlock_congr {x x' : RegFile 48} (block : List Byte) (h : ∀ j, j < 16 → regRead x j = regRead x' j) :
    loadBlock x block = loadBlock x' block := by
  refine regFile_ext fun k hk => ?_
  simp only [loadBlock, regRead_regBuild _ hk]
  split_ifs with h₁ h₂
  · exact h k h₁
  · rfl
  · rw [h (k - 32) (by omega)]

/-- Settles O24: `LDBLK` answers `loadBlock`, whose three lanes are said above; only `X[0..15]` of the old `X` enters it
(`loadBlock_congr`). -/
theorem ldblkResult : Obligations.LdblkResult := by
  refine ⟨rfl, fun s hw => ⟨_, execLdblk_eq hw, fun j hj => ⟨?_, ?_, ?_⟩, rfl⟩, ?_, ?_⟩
  · exact regRead_loadBlock_kept _ _ hj
  · exact (regRead_loadBlock_block _ _ hj).trans (Memory.readBytes_getD _ _ hj)
  · exact (regRead_loadBlock_xor _ _ hj).trans (congrArg _ (Memory.readBytes_getD _ _ hj))
  · intro s s' t t' ht ht' hi hw hx
    obtain ⟨-, rfl⟩ := execLdblk_next ht
    obtain ⟨-, rfl⟩ := execLdblk_next ht'
    exact ⟨by simp only [hi, hw, loadBlock_congr _ hx], rfl⟩
  · intro s t ht hz j hj
    obtain ⟨-, rfl⟩ := execLdblk_next ht
    simp only [regRead_loadBlock_block _ _ hj, regRead_loadBlock_xor _ _ hj, hz j hj, BitVec.zero_xor]

/-! ## `MIX` -/

/-- `MIX` leaves its register alone exactly when `T` is the byte that `SUB` takes to 0. -/
theorem xor_sub_eq_self_iff (x t : Byte) : x ^^^ sub t = x ↔ t = 0xdd#8 := by
  rw [← sub_eq_zero_iff]
  simp

/-- Settles O25: the new byte is written to `X[K]` and to `T` together, and `nextMix` moves only `K` and `PHASE`. -/
theorem mixResult : Obligations.MixResult := by
  refine ⟨rfl, fun s hk => ⟨_, (execMix_eq hk).trans (congrArg _ (nextMix_eq _)), rfl, ?_, fun j hj => ?_, ?_, ?_, rfl⟩⟩
  · exact regRead_regWrite_same _ _ hk
  · exact regRead_regWrite_ne _ _ hj
  · intro ht hx
    simp only [ht, hx]
    rfl
  · simp only [regRead_regWrite_same _ _ hk, xor_sub_eq_self_iff]

/-! ## `RADJ` -/

/-- `LDBLK` does not read `T`: it sets it to 0. -/
theorem execLdblk_ignores_t {s t : State} (h : execLdblk s = .next t) (b : Byte) :
    execLdblk { s with t := b } = .next t := by
  obtain ⟨hw, rfl⟩ := execLdblk_next h
  exact execLdblk_eq (s := { s with t := b }) hw

/-- Settles O26: `RADJ`'s result is `execRadj_eq`; of the operations that follow the last round, `LDBLK` sets `T` to 0
and `EXTRACT` reads `X` alone. -/
theorem radjResult : Obligations.RadjResult := by
  refine ⟨rfl, fun s => ⟨_, execRadj_eq s, ?_, ?_, ?_⟩, fun _ _ b h => execLdblk_ignores_t h b, ?_⟩
  · simp [BitVec.toNat_add]
  · intro hr
    simp [hr]
  · simp only [moreBlocks_iff]
  · rintro s _ b ⟨⟩
    exact ⟨_, rfl, rfl⟩

/-! ## The first sixteen `MIX` steps -/

/-- The first `n` `MIX`es of a round, short of its last one, are its first `n` positions. -/
theorem mixes_run_upto (s : State) (r : Nat) (acc : RegFile 48 × Byte) {n : Nat} (hn : n ≤ 47) :
    EngineRun ((List.range n).map fun k => (.mix, [s.i, r, k])) (s.mixing r acc 0)
      (s.mixing r ((List.range n).foldl mixPosition acc) n) := by
  induction n with
  | zero => exact .nil _
  | succ n ih =>
    rw [List.range_succ, List.map_append, List.foldl_concat, ← nextMix_mixing_position s r _ hn]
    exact (ih (by omega)).append (mix_run s r _ (by omega))

/-- Before position `k` of a round over `x`: the first `k` registers of `X` and `T` hold the iterates of `SUB` from 0,
and the other registers hold what `x` does. -/
def SubChain (x : RegFile 48) (k : Nat) (acc : RegFile 48 × Byte) : Prop :=
  acc.2 = sub^[k] 0x00#8 ∧ (∀ j, j < k → regRead acc.1 j = sub^[j + 1] 0x00#8) ∧
    ∀ j, k ≤ j → regRead acc.1 j = regRead x j

/-- Over a register that holds 0, a position adds the next iterate to the chain. -/
theorem subChain_mixPosition {x : RegFile 48} {k : Nat} {acc : RegFile 48 × Byte} (hk : k < 48)
    (hx : regRead x k = 0x00#8) (h : SubChain x k acc) : SubChain x (k + 1) (mixPosition acc k) := by
  obtain ⟨ht, hchain, hrest⟩ := h
  have hv : regRead acc.1 k ^^^ sub acc.2 = sub^[k + 1] 0x00#8 := by
    rw [hrest k le_rfl, hx, BitVec.zero_xor, ht, Function.iterate_succ_apply']
  rw [mixPosition, hv]
  refine ⟨rfl, fun j hj => ?_, fun j hj => ?_⟩
  · obtain rfl | hne := eq_or_ne j k
    · exact regRead_regWrite_same _ _ hk
    · exact (regRead_regWrite_ne _ _ hne).trans (hchain j (by omega))
  · exact (regRead_regWrite_ne _ _ (by omega)).trans (hrest j (by omega))

/-- Over `n` registers that hold 0, the first `n` positions run the chain, whatever the rest of `X` holds. -/
theorem subChain_foldl_mixPosition {x : RegFile 48} {n : Nat} (hn : n ≤ 48) (hx : ∀ k, k < n → regRead x k = 0x00#8) :
    SubChain x n ((List.range n).foldl mixPosition (x, 0x00#8)) := by
  induction n with
  | zero => exact ⟨rfl, nofun, fun _ _ => rfl⟩
  | succ n ih =>
    rw [List.range_succ, List.foldl_concat]
    exact subChain_mixPosition hn (hx n n.lt_succ_self) (ih (by omega) fun k hk => hx k (by omega))

/-- `XINIT` and `LDBLK` bring the first block into an `X` of zeros. -/
theorem first_block_run {s : State} (hph : s.phase = .xi) (hw : s.wFits 16 = true) :
    EngineRun [(.xinit, []), (.ldblk, [0])] s
      (State.mixing { s with i := 0 } 0 (loadBlock (regZero 48) (s.w.readBytes 0 16), 0x00#8) 0) := by
  have hload := execLdblk_eq (s := { s with x := regZero 48, t := 0x00#8, i := 0, phase := .ldb }) hw
  exact .cons (i := .xinit) (by simp [issued_eq, hph]) rfl (.single (i := .ldblk) rfl hload)

/-- `X[0..15]` is 0 and `X[16]` holds the first byte of `W` when the first block has been loaded. -/
theorem regRead_first_block (w : Memory) :
    (∀ k, k < 16 → regRead (loadBlock (regZero 48) (w.readBytes 0 16)) k = 0x00#8) ∧
    regRead (loadBlock (regZero 48) (w.readBytes 0 16)) 16 = w.read 0 :=
  ⟨fun k hk => (regRead_loadBlock_kept _ _ hk).trans (regRead_regZero 48 k),
    (regRead_loadBlock_block _ _ (j := 0) (by decide)).trans (w.readBytes_getD 0 (by decide))⟩

/-- A `MIX` short of the last one, as a step of the machine. -/
theorem step_mixing {s : State} (hh : s.host = []) (r : Nat) (acc : RegFile 48 × Byte) {k : Nat} (hk : k < 47) :
    step (s.mixing r acc k) = .next (s.mixing r (mixPosition acc k) (k + 1)) := by
  rw [← nextMix_mixing_position s r _ hk]
  exact (step_of_host_nil (s := s.mixing r acc k) hh).trans (execMix_eq (hk.trans (by decide)))

/-- Settles O51: the first sixteen `MIX`es run the chain of `SUB` over the zeros that `XINIT` left in `X[0..15]`, and the
next one is the first to read a byte of `W`, the one `LDBLK` put in `X[16]`. -/
theorem firstSixteenMixesIgnoreTheInput : Obligations.FirstSixteenMixesIgnoreTheInput := by
  intro s hh hph hw
  obtain ⟨hzero, hbyte⟩ := regRead_first_block s.w
  obtain ⟨ht, hchain, hrest⟩ := subChain_foldl_mixPosition (by decide) hzero
  obtain ⟨hrun, -⟩ := ((first_block_run hph hw).append (mixes_run_upto _ 0 _ (n := 16) (by decide))).run_trace hh
  refine ⟨_, hrun, rfl, rfl, rfl, rfl, hchain, ?_, _,
    step_mixing (s := { s with i := 0 }) hh 0 _ (k := 16) (by decide), ?_⟩
  · exact (List.map_congr_left fun k hk => hchain k (List.mem_range.mp hk)).trans (by decide)
  · refine (regRead_regWrite_same _ _ (by decide)).trans ?_
    rw [hrest 16 le_rfl, hbyte, ht]
    rfl

end Sys2Proof.Machine
end

section
/-! PROOF. The operations of an accepted `DIGEST n`, and the engine in `DONE` after them (O53; 44_digest_command.md
R83): a trace splits where a run does, and a stopped engine with no host move pending adds nothing to it. -/

namespace Sys2Proof.Machine

/-- A trace of `m + n` steps is the trace of a run of `m` steps and that of `n` steps from where it ends. -/
theorem trace_add {m n : Nat} {s t : State} (h : run m s = .next t) : trace (m + n) s = trace m s ++ trace n t := by
  induction m generalizing s with
  | zero =>
    cases h
    rw [Nat.zero_add]
    rfl
  | succ m ih =>
    obtain ⟨u, hstep, hrun⟩ := run_first h
    rw [Nat.succ_add, trace_succ hstep, trace_succ hstep, ih hrun, List.append_assoc]

theorem issued_of_done {s : State} (h : s.phase = .done) : issued s = none := by
  rw [issued_eq, h]

/-- An engine with no operation to issue has no step (60_exceptions.md R103). -/
theorem engineStep_of_issued_none {s : State} (h : issued s = none) : engineStep s = .next s := by
  rw [engineStep, h]

theorem executed_of_issued_none {s : State} (h : issued s = none) : executed s = [] := by
  rw [executed, h]
  cases s.enginesTurn <;> rfl

/-- An engine with no operation to issue, left alone by its host, executes nothing. -/
theorem trace_of_issued_none {s : State} (hh : s.host = []) (h : issued s = none) (n : Nat) : trace n s = [] := by
  induction n with
  | zero => rfl
  | succ n ih =>
    rw [trace_succ ((step_of_host_nil hh).trans (engineStep_of_issued_none h)), executed_of_issued_none h, ih,
      List.nil_append]

/-- Settles O53: the trace and the final state are those of the run of the command (`digest_command_run`); in `DONE` no
operation is issued, so further steps without a host move append nothing. -/
theorem operationSequence : Obligations.OperationSequence := by
  intro s t n moves rest hb hn hh hm hcap hstep
  obtain ⟨a, u, ha, htrace, hrun, hdone, -, hhost, -⟩ := digest_command_run hb hn hh hm (wFits_iff.mpr hcap)
  cases ha.symm.trans hstep
  have hstop : issued u = none := issued_of_done hdone
  refine ⟨htrace, traceDigest_length n, ⟨u, hrun, hdone, hhost, hstop⟩, fun hrest k => ?_⟩
  rw [trace_add hrun, htrace, trace_of_issued_none (hhost.trans hrest) hstop, List.append_nil]

end Sys2Proof.Machine
end

section
/-! PROOF. Acceptance of a command word in every state (O8; 44_digest_command.md R82): the outcomes are those of the
port `CMD` (`commandPort`), and none of them is `DONE`. -/

namespace Sys2Proof.Machine

/-- Accepted or too long, a `DIGEST n` leaves `OUT` not valid. -/
theorem outValid_acceptDigest (n : Nat) (s : State) : (acceptDigest n s).outValid = false := by
  refine decide_eq_false ?_
  obtain ⟨-, heq⟩ | ⟨-, heq⟩ := acceptDigest_cases n s <;> rw [heq]
  · rw [startInvocation_phase]
    split_ifs <;> decide
  · nofun

/-- Settles O8: what a write to `CMD` does in each kind of state is `commandPort`; `OUT` is not valid afterwards, because
acceptance and its faults all leave `DONE`. -/
theorem acceptanceOfCommandWord : Obligations.AcceptanceOfCommandWord := by
  intro s w rest hh
  obtain ⟨hport, -⟩ := commandPort
  obtain ⟨hstopped, hbusy⟩ := hport s w rest hh
  have hstop := busy_eq_false_iff s
  cases hb : s.busy with
  | true =>
    obtain ⟨-, hdropped⟩ := hbusy (hstop.not.mp (by simp [hb]))
    exact ⟨fun _ => hdropped, nofun, nofun, nofun, nofun⟩
  | false =>
    obtain ⟨hillegal, htooLong, haccepted⟩ := hstopped (hstop.mp hb)
    refine ⟨nofun, fun _ => hillegal, fun _ => htooLong, fun _ => haccepted, fun _ t hs => ?_⟩
    cases (step_writeCmd_of_not_busy hh hb).symm.trans hs
    split_ifs
    · exact outValid_acceptDigest _ _
    · rfl

end Sys2Proof.Machine
end

section
/-! PROOF. The host reads `OUT` in `DONE` (O39; 44_digest_command.md R86): a read transaction returns the registers it
names and leaves the state alone, and of the host's moves only a `CMD` write and `RESET` touch `PHASE` or `OUT`. -/

namespace Sys2Proof.Machine

theorem hostReadByte_out {s : State} (h : s.phase = .done) {j : Nat} (hj : j < 16) :
    hostReadByte s (0x10 + j) = .ok (regRead s.out j, s) := by
  have hvalid : s.outValid = true := decide_eq_true h
  rw [hostReadByte, if_neg (by omega), if_neg (by omega), if_neg (by omega), if_pos (by omega), if_pos hvalid,
    Nat.add_sub_cancel_left]

/-- In `DONE` a read inside `OUT` returns its registers in index order and changes nothing. -/
theorem hostRead_out {s : State} (h : s.phase = .done) {j n : Nat} (hle : j + n ≤ 16) :
    hostRead (0x10 + j) n s = .ok ((List.range' j n).map (regRead s.out), s) := by
  induction n generalizing j with
  | zero => rfl
  | succ n ih =>
    rw [hostRead, hostReadByte_out h (by omega)]
    simp only [Nat.add_assoc, ih (j := j + 1) (by omega), List.range'_succ, List.map_cons]

/-- The registers of a file in index order are its list. -/
theorem map_regRead_range' {n : Nat} (v : RegFile n) : (List.range' 0 n).map (regRead v) = v.toList := by
  refine List.ext_getElem (by simp) fun k hk _ => ?_
  have hk' : k < n := by simpa using hk
  simp [regRead_eq_getElem v hk']

theorem step_read {s t : State} {off n : Nat} {rest : List HostMove} {bs : List Byte}
    (hh : s.host = .read off n :: rest) (hr : hostRead off n { s with host := rest } = .ok (bs, t)) :
    step s = .next { t with rdata := bs } := by
  rw [step_of_host_cons hh, hostStep, hostReadMove, hr]

/-- A host move in `DONE` other than a `CMD` write and `RESET` keeps `DONE` and `OUT`. -/
theorem hostStep_done {s t : State} {m : HostMove} (hd : s.phase = .done) (hs : hostStep m s = .next t) :
    (t.phase = .done ∧ t.out = s.out) ∨ (∃ w, m = .writeCmd w) ∨ ∃ o, m = .reset o := by
  cases m with
  | wait =>
    cases (engineStep_of_issued_none (issued_of_done hd)).symm.trans hs
    exact .inl ⟨hd, rfl⟩
  | reset o => exact .inr (.inr ⟨o, rfl⟩)
  | writeCmd w => exact .inr (.inl ⟨w, rfl⟩)
  | writeByte off b =>
    simp only [hostStep, hostWriteByte] at hs
    split_ifs at hs
    cases hs
    exact .inl ⟨hd, rfl⟩
  | read off n =>
    obtain ⟨rd, d, rfl⟩ := hostReadMove_next hs
    exact .inl ⟨hd, rfl⟩
  | present bytes =>
    simp only [hostStep, hostPresent] at hs
    split_ifs at hs
    cases hs
    exact .inl ⟨hd, rfl⟩

/-- Settles O39: the two reads of `OUT` are `hostRead_out` for one register and for all of them; the last clause is
`hostStep_done`, or the stopped engine where the host makes no move. -/
theorem outputReadableInDone : Obligations.OutputReadableInDone := by
  refine ⟨fun s j rest hd hj hh => ?_, fun s rest hd hh => ?_, fun s rest hh => ?_, fun s t hd hs => ?_⟩
  · exact step_read hh (hostRead_out (s := { s with host := rest }) hd hj)
  · rw [← map_regRead_range' s.out]
    exact step_read hh (hostRead_out (s := { s with host := rest }) hd (j := 0) le_rfl)
  · exact step_read hh (hostRead_status { s with host := rest })
  · cases hh : s.host with
    | nil =>
      rw [step_of_host_nil hh, engineStep_of_issued_none (issued_of_done hd)] at hs
      cases hs
      exact .inl ⟨hd, rfl⟩
    | cons m rest =>
      rw [step_of_host_cons hh] at hs
      obtain hkept | ⟨w, rfl⟩ | ⟨o, rfl⟩ := hostStep_done (s := { s with host := rest }) hd hs
      · exact .inl hkept
      · exact .inr (.inl ⟨w, rest, rfl⟩)
      · exact .inr (.inr ⟨o, rest, rfl⟩)

end Sys2Proof.Machine
end

section
/-! PROOF. The two faults of acceptance (60_exceptions.md R90 to R92, R95): when each is raised, what taking it writes,
and the `CMD` write that is dropped. The proofs of O10, O11, O12 and O14 stand here. -/

namespace Sys2Proof.Machine

/-! ## When `ResourceExhausted` is raised -/

theorem wFits_iff_le {s : State} {cap : Nat} (hcap : s.wCap = some cap) (n : Nat) : s.wFits n = true ↔ n ≤ cap := by
  rw [State.wFits, hcap]
  exact decide_eq_true_iff

theorem wFits_of_unbounded {s : State} (hcap : s.wCap = none) (n : Nat) : s.wFits n = true := by
  rw [State.wFits, hcap]

/-- The padded input and the checksum block are whole blocks. -/
theorem bufferNeed_eq (n : Nat) : bufferNeed n = 16 * (n / 16) + 32 := by
  rw [bufferNeed, add_padCount]
  omega

theorem exec_digest_of_not_busy {s : State} (hb : s.busy = false) (n : Nat) :
    exec (.digest n) s = .next (acceptDigest n s) := by
  rw [exec, execDigest, hb]
  rfl

theorem acceptDigest_err_none_iff (n : Nat) (s : State) :
    (acceptDigest n s).err = .none ↔ s.wFits (bufferNeed n) = true := by
  obtain ⟨hfit, heq⟩ | ⟨hfit, heq⟩ := acceptDigest_cases n s <;> simp [hfit, heq]

theorem acceptDigest_err_resourceExhausted_iff (n : Nat) (s : State) :
    (acceptDigest n s).err = .resourceExhausted ↔ ¬ s.wFits (bufferNeed n) = true := by
  obtain ⟨hfit, heq⟩ | ⟨hfit, heq⟩ := acceptDigest_cases n s <;> simp [hfit, heq]

theorem startInvocation_phase_ne_fault (n : Nat) (s : State) : (startInvocation n s).phase ≠ .fault := by
  rw [startInvocation_phase]
  split_ifs <;> nofun

/-- Settles O10: `ERR` after acceptance says whether `W` has room, and what has to fit is `n + p + 16`, a whole number of
blocks. -/
theorem resourceExhaustedExactlyWhenTooLong : Obligations.ResourceExhaustedExactlyWhenTooLong := by
  intro s n hb
  have hnone := acceptDigest_err_none_iff n s
  have hexh := acceptDigest_err_resourceExhausted_iff n s
  refine ⟨acceptDigest n s, exec_digest_of_not_busy hb n, fun hcap => ?_, fun cap hcap => ?_⟩
  · have hfit := wFits_of_unbounded hcap (bufferNeed n)
    refine ⟨?_, hnone.mpr hfit⟩
    rw [acceptDigest_of_fits hfit]
    exact startInvocation_phase_ne_fault n _
  · have hfit := wFits_iff_le hcap (bufferNeed n)
    have hblocks : (acceptDigest n s).err = .none ↔ 16 * (n / 16) + 32 ≤ cap := by
      rw [hnone, hfit, bufferNeed_eq]
    refine ⟨hexh.trans (hfit.not.trans Nat.not_le), hblocks, fun he => acceptDigest_of_not_fits (hexh.mp he), ?_, ?_⟩ <;>
      rintro rfl <;> rw [hblocks] <;> omega

/-! ## What a `CMD` write does -/

/-- The three outcomes of a `CMD` write to an engine that is not `BUSY`; the opcode is tested first
(60_exceptions.md R94). -/
theorem step_writeCmd_cases {s t : State} {w : CommandWord} {rest : List HostMove} (hb : s.busy = false)
    (hh : s.host = .writeCmd w :: rest) (hs : step s = .next t) :
    (w.toNat % 256 ≠ 1 ∧ t = raiseError .illegalCommand { s with host := rest }) ∨
    (w.toNat % 256 = 1 ∧ t = raiseError .resourceExhausted { s with host := rest }) ∨
    (w.toNat % 256 = 1 ∧ t = startInvocation (w.toNat / 256) (clearError { s with host := rest })) := by
  cases (step_writeCmd_of_not_busy hh hb).symm.trans hs
  split_ifs with hop
  · obtain ⟨-, heq⟩ | ⟨-, heq⟩ := acceptDigest_cases (w.toNat / 256) { s with host := rest }
    · exact .inr (.inr ⟨hop, heq⟩)
    · exact .inr (.inl ⟨hop, heq⟩)
  · exact .inl ⟨hop, rfl⟩

theorem step_writeCmd_of_busy {s : State} {w : CommandWord} {rest : List HostMove} (hb : s.busy = true)
    (hh : s.host = .writeCmd w :: rest) : step s = .next { s with host := rest } := by
  obtain ⟨hdropped, -⟩ := acceptanceOfCommandWord s w rest hh
  exact hdropped hb

/-- Settles O11: the write is one step that only removes the move, so a run goes on from there. -/
theorem commandWhileBusyIsDropped : Obligations.CommandWhileBusyIsDropped := by
  intro s w rest hb hh
  have hstep := step_writeCmd_of_busy hb hh
  exact ⟨hstep, fun _ => run_succ hstep⟩

/-- Settles O12: the illegal word's clause of acceptance (`acceptanceOfCommandWord`); `OUT` is valid in `DONE` only. -/
theorem illegalCommandFaults : Obligations.IllegalCommandFaults := by
  intro s w rest hb hh hop
  obtain ⟨-, hillegal, -⟩ := acceptanceOfCommandWord s w rest hh
  exact ⟨_, hillegal hb hop, rfl, rfl⟩

/-! ## Taking a fault -/

/-- An engine that is not `BUSY` has no step (60_exceptions.md R103). -/
theorem issued_of_not_busy {s : State} (hb : s.busy = false) : issued s = none := by
  rw [← Option.isNone_iff_eq_none, ← Option.not_isSome, issued_isSome, hb]
  rfl

theorem busy_of_fault {s : State} (h : s.phase = .fault) : s.busy = false :=
  (busy_eq_false_iff s).mpr (.inr (.inr h))

theorem raiseError_status (e : Err) (s : State) : (raiseError e s).status = (0#4 ++ e.code) ++ 3#2 := rfl

/-- Settles O14: of the three outcomes of the write, the two in `FAULT` are `raiseError` of their code, which writes
`PHASE` and `ERR`; `STATUS` is computed from these. -/
theorem faultEntry : Obligations.FaultEntry := by
  intro s t w rest hb hh hs hfault
  have hstop := issued_of_not_busy (busy_of_fault hfault)
  obtain ⟨-, rfl⟩ | ⟨-, rfl⟩ | ⟨-, rfl⟩ := step_writeCmd_cases hb hh hs
  · exact ⟨rfl, rfl, .inr ⟨rfl, (raiseError_status _ _).trans (by decide)⟩, hstop⟩
  · exact ⟨rfl, rfl, .inl ⟨rfl, (raiseError_status _ _).trans (by decide)⟩, hstop⟩
  · exact absurd hfault (startInvocation_phase_ne_fault _ _)

end Sys2Proof.Machine
end

section
/-! PROOF. How a step enters and leaves `FAULT` (60_exceptions.md R94, R96): no operation of the sequencer does either,
and of the host's moves only a `CMD` write and `RESET` write `PHASE`. The proofs of O13 and O15 stand here. -/

namespace Sys2Proof.Machine

/-! ## Steps and `FAULT` -/

theorem issued_ne_digest (s : State) (n : Nat) : issued s ≠ some (.digest n) := by
  rw [issued_eq]
  cases s.phase <;> nofun

/-- A sequencer operation does not enter `FAULT` (60_exceptions.md R88). -/
theorem exec_phase_ne_fault {i : Instr} {s t : State} (hi : ∀ n, i ≠ .digest n) (hp : s.phase ≠ .fault)
    (hs : exec i s = .next t) : t.phase ≠ .fault := by
  cases i with
  | digest n => exact absurd rfl (hi n)
  | copyb =>
    obtain ⟨-, -, ⟨-, rfl⟩ | ⟨-, rfl⟩⟩ := execCopyb_next hs
    · nofun
    · exact hp
  | padb =>
    obtain ⟨-, ⟨-, rfl⟩ | ⟨-, rfl⟩⟩ := execPadb_next hs
    · nofun
    · exact hp
  | ckinit => cases hs; nofun
  | ckstep =>
    obtain ⟨-, -, rfl⟩ := execCkstep_next hs
    obtain ⟨-, heq⟩ | ⟨-, -, heq⟩ | ⟨-, -, heq⟩ := nextCkstep_cases _ <;> rw [heq]
    · exact hp
    · exact hp
    · nofun
  | ckapp => obtain ⟨-, rfl⟩ := execCkapp_next hs; nofun
  | xinit => cases hs; nofun
  | ldblk => obtain ⟨-, rfl⟩ := execLdblk_next hs; nofun
  | mix =>
    obtain ⟨-, rfl⟩ := execMix_next hs
    obtain ⟨-, heq⟩ | ⟨-, heq⟩ := nextMix_cases _ <;> rw [heq]
    · exact hp
    · nofun
  | radj => obtain ⟨-, rfl⟩ | ⟨-, -, rfl⟩ | ⟨-, -, rfl⟩ := execRadj_next hs <;> nofun
  | extract => cases hs; nofun

/-- An engine step neither enters nor leaves `FAULT`. -/
theorem engineStep_phase_fault_iff {s t : State} (hs : engineStep s = .next t) :
    t.phase = .fault ↔ s.phase = .fault := by
  refine ⟨fun ht => ?_, fun hp => ?_⟩
  · by_contra hp
    unfold engineStep at hs
    split at hs
    · rename_i i hi
      exact exec_phase_ne_fault (fun n hn => issued_ne_digest s n (hn ▸ hi)) hp hs ht
    · cases hs
      exact hp ht
  · cases (engineStep_of_issued_none (issued_of_not_busy (busy_of_fault hp))).symm.trans hs
    exact hp

/-- A step takes `RESET`, or a `CMD` write, or neither enters nor leaves `FAULT`. -/
theorem step_fault_cases {s t : State} (hs : step s = .next t) :
    (∃ o rest, s.host = .reset o :: rest ∧ t = resetEvent { s with host := rest }) ∨
    (∃ w rest, s.host = .writeCmd w :: rest) ∨
    (t.phase = .fault ↔ s.phase = .fault) := by
  cases hh : s.host with
  | nil =>
    rw [step_of_host_nil hh] at hs
    exact .inr (.inr (engineStep_phase_fault_iff hs))
  | cons m rest =>
    rw [step_of_host_cons hh] at hs
    cases m with
    | wait => exact .inr (.inr (engineStep_phase_fault_iff (s := { s with host := rest }) hs))
    | reset o =>
      cases hs
      exact .inl ⟨o, rest, rfl, rfl⟩
    | writeCmd w => exact .inr (.inl ⟨w, rest, rfl⟩)
    | writeByte off b =>
      simp only [hostStep, hostWriteByte] at hs
      split_ifs at hs
      cases hs
      exact .inr (.inr .rfl)
    | read off n =>
      obtain ⟨rd, d, rfl⟩ := hostReadMove_next hs
      exact .inr (.inr .rfl)
    | present bytes =>
      simp only [hostStep, hostPresent] at hs
      split_ifs at hs
      cases hs
      exact .inr (.inr .rfl)

/-- Settles O13: the outcomes of a write by its opcode (`step_writeCmd_cases`); of the other steps none enters `FAULT`
(`step_fault_cases`), nor does a dropped write; `RESET` does not look at the write it loses. -/
theorem faultPriority : Obligations.FaultPriority := by
  refine ⟨fun s t w rest hb hh hs => ?_, fun s t hs hp ht => ?_, fun s w rest hh => ?_⟩
  · obtain ⟨hop, rfl⟩ | ⟨hop, rfl⟩ | ⟨hop, rfl⟩ := step_writeCmd_cases hb hh hs <;> simp [hop]
  · obtain ⟨o, rest, -, rfl⟩ | ⟨w, rest, hh⟩ | hiff := step_fault_cases hs
    · cases ht
    · refine ⟨Bool.eq_false_iff.mpr fun hb => ?_, w, rest, hh⟩
      cases (step_writeCmd_of_busy hb hh).symm.trans hs
      exact hp ht
    · exact absurd (hiff.mp ht) hp
  · rw [step_of_host_cons hh]
    rfl

/-! ## The next command in `FAULT` -/

/-- Acceptance does not look at `PHASE` and `ERR`: it writes both. -/
theorem acceptDigest_overwrites (n : Nat) (s : State) (ph : Phase) (e : Err) :
    acceptDigest n { s with phase := ph, err := e } = acceptDigest n s := by
  have hfit : ({ s with phase := ph, err := e } : State).wFits (bufferNeed n) = s.wFits (bufferNeed n) := rfl
  by_cases h : s.wFits (bufferNeed n) = true
  · rw [acceptDigest_of_fits h, acceptDigest_of_fits (hfit.trans h)]
    rfl
  · rw [acceptDigest_of_not_fits h, acceptDigest_of_not_fits (hfit ▸ h)]
    rfl

/-- Settles O15: only `RESET` and a `CMD` write can leave `FAULT` (`step_fault_cases`), a write by starting an invocation;
and acceptance overwrites the `PHASE` and `ERR` it finds. -/
theorem waysOutOfFault : Obligations.WaysOutOfFault := by
  refine ⟨fun s t hp hs ht => ?_, fun s w rest hp hh => ?_⟩
  · obtain ⟨o, rest, hh, rfl⟩ | ⟨w, rest, hh⟩ | hiff := step_fault_cases hs
    · exact .inl ⟨o, rest, hh, rfl⟩
    · refine .inr ⟨w, rest, hh, ?_⟩
      obtain ⟨-, rfl⟩ | ⟨-, rfl⟩ | ⟨-, rfl⟩ := step_writeCmd_cases (busy_of_fault hp) hh hs
      · exact absurd rfl ht
      · exact absurd rfl ht
      · rfl
    · exact absurd (hiff.mpr hp) ht
  · rw [step_writeCmd_of_not_busy hh (busy_of_fault hp),
      step_writeCmd_of_not_busy (s := { s with phase := .idle, err := .none }) hh rfl]
    split_ifs
    · exact congrArg _ (acceptDigest_overwrites _ { s with host := rest } .idle .none).symm
    · rfl

end Sys2Proof.Machine
end

section
/-! PROOF. A `BUSY` engine reaches `DONE` (O55; 70_reset_and_hazards.md R119): `State.stepsLeft` counts the engine steps
still to come from where the counters stand, and every engine step takes one off it. -/

namespace Sys2Proof.Machine

/-! ## The steps still to come -/

/-- The steps of `COMPRESS` in a `DIGEST n` (30_encoding.md R53; 44_digest_command.md R83). -/
def compressSteps (n : Nat) : Nat := 883 * (dataBlocks n + 1) + 2

/-- The steps of `CKSUM` and `COMPRESS` in a `DIGEST n`. -/
def cksumSteps (n : Nat) : Nat := 16 * dataBlocks n + 2 + compressSteps n

/-- The engine steps from `s` to `DONE`, by where the counters stand in its phase. -/
def State.stepsLeft (s : State) : Nat :=
  match s.phase with
  | .idle => 0
  | .copy => s.nin - s.q + s.p + cksumSteps s.nin
  | .pad => s.p - s.q + cksumSteps s.nin
  | .cki => cksumSteps s.nin
  | .cks => 16 * dataBlocks s.nin - blockIndex s.i s.k + 1 + compressSteps s.nin
  | .cka => 1 + compressSteps s.nin
  | .xi => compressSteps s.nin
  | .ldb => 883 * (dataBlocks s.nin + 1 - s.i) + 1
  | .mix => 883 * (dataBlocks s.nin - s.i) + 49 * (17 - s.r) + (48 - s.k) + 2
  | .radj => 883 * (dataBlocks s.nin - s.i) + 49 * (17 - s.r) + 2
  | .ext => 1
  | .done => 0
  | .fault => 0

/-- Of an accepted command, the padded input is its data blocks. -/
theorem accepted_dataBlocks {s : State} (h : s.accepted) : s.nin + s.p = 16 * dataBlocks s.nin := by
  rw [accepted_blocks h, dataBlocks_eq]

/-- An engine step takes one off the steps still to come: within a phase by its counters, and at its end because the
next phase begins with what is left. -/
theorem stepsLeft_advance {s : State} (h : s.Inv) (hb : s.busy = true) : s.advance.stepsLeft + 1 = s.stepsLeft := by
  obtain ⟨-, -, -, hp⟩ := h
  have hblocks := accepted_dataBlocks (accepted_of_busy hp hb)
  unfold State.phaseInv at hp
  unfold State.busy at hb
  unfold State.advance
  cases hph : s.phase <;> simp only [hph] at hp hb ⊢
  case idle | done | fault => cases hb
  case copy =>
    obtain ⟨-, -, hq⟩ := hp
    split_ifs <;> simp only [State.stepsLeft, hph] <;> omega
  case pad =>
    obtain ⟨-, -, hq⟩ := hp
    split_ifs <;> simp only [State.stepsLeft, hph] <;> omega
  case cki =>
    simp only [State.stepsLeft, hph, cksumSteps, blockIndex]
    omega
  case cks =>
    obtain ⟨-, hlen, hk, hi⟩ := hp
    simp only [moreBlocks_iff]
    split_ifs <;> simp only [State.stepsLeft, hph, blockIndex] <;> omega
  case cka =>
    simp only [State.stepsLeft, hph]
    omega
  case xi => simp only [State.stepsLeft, hph, compressSteps, Nat.sub_zero]
  case ldb =>
    obtain ⟨-, hlen, hi⟩ := hp
    simp only [State.stepsLeft, hph]
    omega
  case mix =>
    obtain ⟨-, -, -, -, hk⟩ := hp
    split_ifs <;> simp only [State.stepsLeft, hph] <;> omega
  case radj =>
    obtain ⟨-, hlen, hi, hr, hk⟩ := hp
    simp only [moreBlocks_iff]
    split_ifs <;> simp only [State.stepsLeft, hph] <;> omega
  case ext => simp only [State.stepsLeft, hph]

/-- In each phase the steps still to come are a last part of the command's, so within its step count. -/
theorem stepsLeft_le {s : State} (h : s.Inv) (hb : s.busy = true) : s.stepsLeft ≤ stepCount s.nin := by
  obtain ⟨-, -, -, hp⟩ := h
  obtain ⟨-, hpad, -⟩ := accepted_of_busy hp hb
  unfold State.phaseInv at hp
  unfold State.stepsLeft stepCount cksumSteps compressSteps
  rw [← hpad]
  cases hph : s.phase <;> simp only [hph] at hp ⊢ <;> omega

theorem stepsLeft_of_done {s : State} (h : s.phase = .done) : s.stepsLeft = 0 := by
  rw [State.stepsLeft, h]

/-! ## The run to `DONE` -/

/-- `BUSY` is left by an engine step to `DONE` only. -/
theorem busy_or_done_advance {s : State} (hb : s.busy = true) : s.advance.busy = true ∨ s.advance.phase = .done := by
  unfold State.busy at hb ⊢
  unfold State.advance
  cases hph : s.phase <;> simp only [hph] at hb ⊢
  case idle | done | fault => cases hb
  case copy | pad | cks | mix | radj => split_ifs <;> exact .inl rfl
  case cki | cka | xi | ldb => exact .inl rfl
  case ext => exact .inr trivial

/-- In a `BUSY` state of the invariant the engine issues an operation, and its step is that operation. -/
theorem exists_issued_exec {s : State} (h : s.Inv) (hb : s.busy = true) :
    ∃ i, issued s = some i ∧ exec i s = .next s.advance := by
  obtain ⟨i, hi⟩ := Option.isSome_iff_exists.mp ((issued_isSome s).trans hb)
  have hstep := engineStep_eq_advance h
  rw [engineStep, hi] at hstep
  exact ⟨i, hi, hstep⟩

/-- From a `BUSY` state of the invariant the engine runs to `DONE`, in exactly the steps still to come. -/
theorem exists_engineRun_done {s : State} (h : s.Inv) (hb : s.busy = true) :
    ∃ ops t, EngineRun ops s t ∧ ops.length = s.stepsLeft ∧ t.phase = .done := by
  induction hn : s.stepsLeft generalizing s with
  | zero => exact absurd ((stepsLeft_advance h hb).trans hn) (Nat.succ_ne_zero _)
  | succ n ih =>
    obtain ⟨i, hi, hexec⟩ := exists_issued_exec h hb
    have hleft : s.advance.stepsLeft = n := Nat.succ.inj ((stepsLeft_advance h hb).trans hn)
    obtain hbusy | hdone := busy_or_done_advance hb
    · obtain ⟨ops, t, hrun, hlen, ht⟩ := ih (inv_advance h) hbusy hleft
      exact ⟨_, t, .cons hi hexec hrun, congrArg (· + 1) hlen, ht⟩
    · rw [stepsLeft_of_done hdone] at hleft
      exact ⟨_, _, .single hi hexec, congrArg (· + 1) hleft, hdone⟩

/-- Settles O55: the number of engine steps is `State.stepsLeft`; the run they make has the engine `BUSY` before each of
them, so the host's quiet moves leave it as it is (`run_undisturbed`). -/
theorem busyEngineReachesDone : Obligations.BusyEngineReachesDone := by
  intro s h hb
  obtain ⟨i, hi, -⟩ := exists_issued_exec h hb
  have hstep := engineStep_eq_advance h
  refine ⟨⟨i, hi, fun j hj => Option.some.inj (hj.symm.trans hi)⟩, ⟨_, hstep, engineStep_host hstep⟩, s.stepsLeft,
    stepsLeft_advance h hb ▸ Nat.succ_pos _, stepsLeft_le h hb, fun moves rest hm => ?_⟩
  obtain ⟨ops, t, hrun, hlen, hdone⟩ := exists_engineRun_done (inv_hosted h [] s.rdata s.draws) hb
  have hlen' : ops.length = s.stepsLeft := hlen
  obtain ⟨hnext, -⟩ := hrun.run_trace rfl
  obtain ⟨⟨rd, d, hall⟩, -⟩ := run_undisturbed rfl hnext (hrun.busy_before rfl) (hlen' ▸ hm) s.rdata s.draws
  exact ⟨t.hosted rest rd d, hlen' ▸ hall, hdone, rfl⟩

end Sys2Proof.Machine
end

section
/-! PROOF. How many of each operation an accepted `DIGEST n` takes (O54; 70_reset_and_hazards.md R118): the counts are
those of the listed sequence (`operationSequence`), taken pseudo-instruction by pseudo-instruction (30_encoding.md R53). -/

namespace Sys2Proof.Machine

/-! ## Counting the operations of a trace -/

/-- How many items of a trace are the operation `i`. -/
def countOp (i : Instr) (ops : List TraceItem) : Nat := ops.countP fun item => item.1 = i

@[simp] theorem countOp_nil (i : Instr) : countOp i [] = 0 := rfl

@[simp] theorem countOp_cons (i : Instr) (item : TraceItem) (ops : List TraceItem) :
    countOp i (item :: ops) = countOp i ops + if item.1 = i then 1 else 0 := by
  simp [countOp, List.countP_cons]

@[simp] theorem countOp_append (i : Instr) (ops ops' : List TraceItem) :
    countOp i (ops ++ ops') = countOp i ops + countOp i ops' :=
  List.countP_append

/-- A loop that adds the same number of `i` in each of its turns. -/
theorem countOp_flatMap {i : Instr} {f : Nat → List TraceItem} {c : Nat} (h : ∀ k, countOp i (f k) = c) (n : Nat) :
    countOp i ((List.range n).flatMap f) = n * c := by
  induction n with
  | zero => simp
  | succ n ih => rw [List.range_succ, List.flatMap_append, countOp_append, ih, List.flatMap_singleton, h, Nat.succ_mul]

/-- A loop of one operation. -/
@[simp] theorem countOp_map (i j : Instr) (f : Nat → List Nat) (n : Nat) :
    countOp i ((List.range n).map fun k => (j, f k)) = if j = i then n else 0 := by
  rw [List.map_eq_flatMap, countOp_flatMap (c := if j = i then 1 else 0) fun k => by simp]
  simp

/-! ## The pseudo-instructions -/

theorem countOp_traceLoad (i : Instr) (n : Nat) : countOp i (traceLoad n) = if .copyb = i then n else 0 :=
  countOp_map i .copyb _ n

theorem countOp_tracePad (i : Instr) (p : Nat) : countOp i (tracePad p) = if .padb = i then p else 0 :=
  countOp_map i .padb _ p

theorem countOp_traceCksum (i : Instr) (nb : Nat) :
    countOp i (traceCksum nb) =
      (if .ckinit = i then 1 else 0) + (nb * if .ckstep = i then 16 else 0) + if .ckapp = i then 1 else 0 := by
  have hsteps := countOp_flatMap (fun b => countOp_map i .ckstep (fun k => [b, k]) 16) nb
  simp only [traceCksum, List.cons_append, countOp_cons, countOp_append, countOp_nil, hsteps]
  omega

theorem countOp_traceRound (i : Instr) (b r : Nat) :
    countOp i (traceRound b r) = (if .mix = i then 48 else 0) + if .radj = i then 1 else 0 := by
  simp [traceRound]

theorem countOp_traceBlock (i : Instr) (b : Nat) :
    countOp i (traceBlock b) =
      (if .ldblk = i then 1 else 0) + 18 * ((if .mix = i then 48 else 0) + if .radj = i then 1 else 0) := by
  rw [traceBlock, countOp_cons, countOp_flatMap (countOp_traceRound i b), Nat.add_comm]

theorem countOp_traceCompress (i : Instr) (nb : Nat) :
    countOp i (traceCompress nb) =
      (if .xinit = i then 1 else 0) +
      (nb + 1) * ((if .ldblk = i then 1 else 0) + 18 * ((if .mix = i then 48 else 0) + if .radj = i then 1 else 0)) +
      if .extract = i then 1 else 0 := by
  simp only [traceCompress, List.cons_append, countOp_cons, countOp_append, countOp_nil,
    countOp_flatMap (countOp_traceBlock i)]
  omega

/-- The counts of each operation in `DIGEST n`. -/
theorem countOp_traceDigest (n : Nat) :
    countOp .copyb (traceDigest n) = n ∧ countOp .padb (traceDigest n) = padCount n ∧
    countOp .ckinit (traceDigest n) = 1 ∧ countOp .ckstep (traceDigest n) = 16 * dataBlocks n ∧
    countOp .ckapp (traceDigest n) = 1 ∧ countOp .xinit (traceDigest n) = 1 ∧
    countOp .ldblk (traceDigest n) = dataBlocks n + 1 ∧ countOp .mix (traceDigest n) = 864 * (dataBlocks n + 1) ∧
    countOp .radj (traceDigest n) = 18 * (dataBlocks n + 1) ∧ countOp .extract (traceDigest n) = 1 := by
  simp [traceDigest, countOp_traceLoad, countOp_tracePad, countOp_traceCksum, countOp_traceCompress, Nat.mul_comm]

/-- Settles O54: the counts and the length of the operation sequence; the totals for `n <= 15` and `n = 16` are
arithmetic. -/
theorem operationCounts : Obligations.OperationCounts := by
  intro s t n moves rest hb hn hh hm hcap hstep ops count nb
  obtain ⟨htrace, hlen, -⟩ := operationSequence s t n moves rest hb hn hh hm hcap hstep
  have hops : ops = traceDigest n := htrace
  have hcount : ∀ i, count i = countOp i (traceDigest n) := fun i => congrArg (countOp i) hops
  have hnb : nb = n / 16 + 1 := dataBlocks_eq n
  have hsteps : ops.length = n + (16 - n % 16) + 16 * nb + 883 * (nb + 1) + 4 := by
    rw [hops, hlen]
    rfl
  obtain ⟨hcopyb, hpadb, hckinit, hckstep, hckapp, hxinit, hldblk, hmix, hradj, hextract⟩ := countOp_traceDigest n
  rw [← hcount] at hcopyb hpadb hckinit hckstep hckapp hxinit hldblk hmix hradj hextract
  rw [show dataBlocks n = nb from rfl] at hckstep hldblk hmix hradj
  refine ⟨hcopyb, hpadb, hckinit, hckstep, hckapp, hxinit, hldblk, hmix, hradj, hextract, by rw [hckstep, hmix], hsteps,
    fun hle => ?_, ?_⟩
  · have hone : nb = 1 := by omega
    rw [hone] at hckstep hmix hradj hsteps
    exact ⟨by omega, hone, hckstep, hmix, hradj, by omega⟩
  · rintro rfl
    exact ⟨hnb, by rw [hsteps, hnb]⟩

end Sys2Proof.Machine
end

section
/-! PROOF. `RESET` (O16, O58; 70_reset_and_hazards.md R104, R105): the step that takes it, the idle engine that waits
for another command, and two engines that only `RESET` has made alike. -/

namespace Sys2Proof.Machine

/-! ## The step that takes `RESET` -/

theorem step_reset {s : State} {o : Option CommandWord} {rest : List HostMove} (h : s.host = .reset o :: rest) :
    step s = .next (resetEvent { s with host := rest }) := by
  rw [step_of_host_cons h, hostStep]

theorem status_of_idle {s : State} (hph : s.phase = .idle) (herr : s.err = .none) : s.status = 0x00#8 := by
  rw [State.status, hph, herr]
  rfl

/-- Settles O16: the step is `resetEvent`, which writes `PHASE` and `ERR`; `STATUS` and the validity of `OUT` are
computed from these. -/
theorem resetFromAnyState : Obligations.ResetFromAnyState := by
  intro s o rest hh
  exact ⟨_, step_reset hh, rfl, rfl, rfl, status_of_idle rfl rfl, rfl, rfl⟩

/-! ## An idle engine without a command -/

/-- In `IDLE` with `ERR` 0, and no `CMD` write among the host's moves to come. -/
def State.uncommanded (s : State) : Prop :=
  s.phase = .idle ∧ s.err = .none ∧ ∀ w, .writeCmd w ∉ s.host

theorem uncommanded_observe {s : State} (h : s.uncommanded) : s.outValid = false ∧ s.status = 0x00#8 := by
  obtain ⟨hph, herr, -⟩ := h
  exact ⟨decide_eq_false (hph ▸ nofun), status_of_idle hph herr⟩

/-- A host move in `IDLE` other than a `CMD` write keeps `PHASE` and `ERR` where they are at reset. -/
theorem uncommanded_hostStep {s t : State} {m : HostMove} (h : s.uncommanded) (hm : ∀ w, m ≠ .writeCmd w)
    (hs : hostStep m s = .next t) : t.uncommanded := by
  obtain ⟨hph, herr, hhost⟩ := id h
  cases m with
  | wait =>
    cases (engineStep_of_issued_none (issued_of_not_busy ((busy_eq_false_iff s).mpr (.inl hph)))).symm.trans hs
    exact h
  | reset o =>
    cases hs
    exact ⟨rfl, rfl, hhost⟩
  | writeCmd w => exact absurd rfl (hm w)
  | writeByte off b =>
    simp only [hostStep, hostWriteByte] at hs
    split_ifs at hs
    cases hs
    exact h
  | read off n =>
    obtain ⟨rd, d, rfl⟩ := hostReadMove_next hs
    exact h
  | present bytes =>
    simp only [hostStep, hostPresent] at hs
    split_ifs at hs
    cases hs
    exact h

theorem uncommanded_step {s t : State} (h : s.uncommanded) (hs : step s = .next t) : t.uncommanded := by
  obtain ⟨hph, herr, hhost⟩ := id h
  cases hh : s.host with
  | nil =>
    rw [step_of_host_nil hh] at hs
    exact uncommanded_hostStep (m := .wait) h nofun hs
  | cons m rest =>
    rw [step_of_host_cons hh] at hs
    rw [hh] at hhost
    exact uncommanded_hostStep (s := { s with host := rest })
      ⟨hph, herr, fun w hw => hhost w (List.mem_cons_of_mem m hw)⟩ (fun w hw => hhost w (hw ▸ List.mem_cons_self)) hs

theorem uncommanded_run {k : Nat} {s t : State} (h : s.uncommanded) (hr : run k s = .next t) : t.uncommanded := by
  induction k generalizing s with
  | zero =>
    cases hr
    exact h
  | succ k ih =>
    obtain ⟨u, hstep, hrest⟩ := run_first hr
    exact ih (uncommanded_step h hstep) hrest

/-! ## What is left of a cancelled invocation -/

/-- Settles O58: without another `CMD` write a reset engine stays in `IDLE` (`uncommanded_run`); and what two reset
engines still differ in is left over from before a command, which is never observed (`leftoverStateIsNeverObservable`). -/
theorem resetCancelsInvocation : Obligations.ResetCancelsInvocation := by
  refine ⟨fun s o rest hh => ?_, fun s s' o rest hs hs' _ _ hh hh' hinp hcap hrd hd k => ?_⟩
  · refine ⟨_, step_reset hh, rfl, rfl, rfl, fun hrest k u hr => ?_⟩
    exact uncommanded_observe (uncommanded_run ⟨rfl, rfl, hrest⟩ hr)
  · rw [run_succ (step_reset hh), run_succ (step_reset hh')]
    exact leftoverStateIsNeverObservable _ _ (inv_step hs (step_reset hh)) (inv_step hs' (step_reset hh')) rfl
      ⟨rfl, rfl, nofun, hinp, hcap, rfl, hrd, hd⟩ k

end Sys2Proof.Machine
end

section
/-! PROOF. Decoding and encoding agree (O1 to O4; 30_encoding.md R44 to R52, 20_memory.md R33): a number is its bytes,
least significant first, and a decoded code is the encoding of what it decodes to. -/

namespace Sys2Proof.Machine

/-! ## A command word and its bytes -/

theorem numberOfBytes_append (bs : List Byte) (b : Byte) :
    numberOfBytes (bs ++ [b]) = numberOfBytes bs + 256 ^ bs.length * b.toNat := by
  induction bs with
  | nil => simp [numberOfBytes]
  | cons b' bs ih =>
    rw [List.cons_append, numberOfBytes, ih, numberOfBytes, List.length_cons]
    ring

/-- The first `n` bytes of a word are the number it is modulo `256 ^ n` (20_memory.md R33). -/
theorem numberOfBytes_extract (w : CommandWord) (n : Nat) :
    numberOfBytes ((List.range n).map fun j => w.extractLsb' (8 * j) 8) = w.toNat % 256 ^ n := by
  induction n with
  | zero => simp [numberOfBytes, Nat.mod_one]
  | succ n ih =>
    have hbyte : (w.extractLsb' (8 * n) 8).toNat = w.toNat / 256 ^ n % 256 := by
      rw [BitVec.extractLsb'_toNat, Nat.shiftRight_eq_div_pow, Nat.pow_mul]
    rw [List.range_succ, List.map_append, List.map_singleton, numberOfBytes_append, ih, hbyte, List.length_map,
      List.length_range, Nat.pow_succ, Nat.mod_mul]

/-- The eight bytes of a command word are the word. -/
theorem numberOfBytes_bytesOfCommand (w : CommandWord) : numberOfBytes (bytesOfCommand w) = w.toNat :=
  (numberOfBytes_extract w 8).trans (Nat.mod_eq_of_lt w.isLt)

/-- Eight bytes decode as the command word of their number (30_encoding.md R51). -/
theorem decodeBytes_of_length {bs : List Byte} (h : bs.length = 8) :
    decodeBytes bs = decodeCommand (BitVec.ofNat 64 (numberOfBytes bs)) := by
  unfold decodeBytes
  split
  · cases h
  · exact if_pos h

theorem decodeBytes_bytesOfCommand (w : CommandWord) : decodeBytes (bytesOfCommand w) = decodeCommand w := by
  rw [decodeBytes_of_length (by simp [bytesOfCommand]), numberOfBytes_bytesOfCommand, BitVec.ofNat_toNat,
    BitVec.setWidth_eq]

/-- Settles O3: a `DIGEST` word decodes to its length (`decodeCommand_encodeDigest`) and its bytes to the word; an
operation's code and byte are constants. -/
theorem decodeEncodeAgree : Obligations.DecodeEncodeAgree := by
  intro i hwf
  cases i with
  | digest n =>
    have hdecode : decodeCommand (encodeDigest n) = .ok (.digest n) :=
      decodeCommand_encodeDigest (of_decide_eq_true hwf)
    exact ⟨hdecode, (decodeBytes_bytesOfCommand _).trans hdecode⟩
  | copyb | padb | ckinit | ckstep | ckapp | xinit | ldblk | mix | radj | extract => exact ⟨rfl, rfl⟩

/-! ## What a code decodes to -/

/-- A word with opcode 1 is the word of its length (30_encoding.md R52). -/
theorem encodeDigest_commandLen {w : CommandWord} (h : commandOpcode w = 0x01#8) : encodeDigest (commandLen w) = w := by
  rw [commandOpcode_eq_iff] at h
  have hword : w.toNat / 256 * 256 + 1 = w.toNat := by omega
  rw [encodeDigest, commandLen_eq, hword, BitVec.ofNat_toNat, BitVec.setWidth_eq]

theorem encode_of_decodeCommand {w : CommandWord} {i : Instr} (h : decodeCommand w = .ok i) :
    encode i = .command w ∧ i.wf = true := by
  obtain ⟨hop, hd⟩ | ⟨-, hd⟩ := decodeCommand_cases w
  · cases hd.symm.trans h
    exact ⟨congrArg Code.command (encodeDigest_commandLen hop), decide_eq_true (commandLen_lt w)⟩
  · cases hd.symm.trans h

theorem encode_of_decodeSelector {c : BitVec 4} {i : Instr} (h : decodeSelector c = .ok i) :
    encode i = .selector c ∧ i.wf = true := by
  unfold decodeSelector at h
  split at h <;> cases h
  all_goals exact ⟨congrArg Code.selector (BitVec.eq_of_toNat_eq (Eq.symm ‹c.toNat = _›)), rfl⟩

/-- Settles O4: a code is a command word or a selector, and each is the code of what it decodes to. -/
theorem encodeDecodeAgree : Obligations.EncodeDecodeAgree := by
  intro c i h
  cases c with
  | command w => exact encode_of_decodeCommand h
  | selector c => exact encode_of_decodeSelector h

/-- Settles O2: the decoders compute on the words of the tables. -/
theorem sampleWordsDecode : Obligations.SampleWordsDecode := by
  unfold Obligations.SampleWordsDecode
  decide

/-! ## A step runs what stands next -/

theorem engineStep_of_decodeSelector {s : State} {i : Instr} (h : decodeSelector s.phase.code = .ok i) :
    engineStep s = exec i s := by
  rw [engineStep, issued, h]

theorem issued_of_decodeSelector_ne_ok {s : State} (h : ∀ i, decodeSelector s.phase.code ≠ .ok i) :
    issued s = none := by
  unfold issued
  split
  · exact absurd ‹_› (h _)
  · rfl

/-- Settles O1: the engine's step is `exec` of the operation its phase selects, a `CMD` write's is `exec` of the command,
which is well formed because it was decoded (`encode_of_decodeCommand`). -/
theorem stepRunsDecodedInstruction : Obligations.StepRunsDecodedInstruction := by
  intro s i
  refine ⟨fun hh hd => ?_, fun rest hh hd => ?_, fun w rest hh hd => ?_, fun hh hd => ?_⟩
  · exact (step_of_host_nil hh).trans (engineStep_of_decodeSelector hd)
  · exact (step_of_host_cons hh).trans (engineStep_of_decodeSelector (s := { s with host := rest }) hd)
  · obtain ⟨-, hwf⟩ := encode_of_decodeCommand hd
    exact ⟨hwf, by rw [step_of_host_cons hh, hostStep, hostWriteCmd, hd]⟩
  · exact (step_of_host_nil hh).trans (engineStep_of_issued_none (issued_of_decodeSelector_ne_ok hd))

end Sys2Proof.Machine
end

section
/-! PROOF. The results of the operations and of an accepted `DIGEST n` (O9, O18 to O23, O27; 41_padder.md R63, R64;
42_checksum.md R67 to R69; 43_compressor.md R73, R77; 44_digest_command.md R82), from the equations of their meanings. -/

namespace Sys2Proof.Machine

/-- Settles O9: with room in `W` acceptance starts the invocation. -/
theorem digestStartsInvocation : Obligations.DigestStartsInvocation := by
  intro s n hb hcap
  rw [exec_digest_of_not_busy hb, acceptDigest_of_fits (wFits_iff.mpr hcap)]
  rfl

/-- Settles O18: the statement is the equation of a `COPYB` that completes. -/
theorem copybResult : Obligations.CopybResult := fun _ hq hw => execCopyb_eq hq hw

/-- Settles O19: the statement is the equation of a `PADB` that completes. -/
theorem padbResult : Obligations.PadbResult := fun _ hw => execPadb_eq hw

/-- Settles O20: the registers of a file of zeros are 0. -/
theorem ckinitResult : Obligations.CkinitResult :=
  fun _ => ⟨_, rfl, fun j _ => regRead_regZero 16 j, rfl⟩

/-- Settles O21: the byte is written to `C[K]` and to `L` together, and `nextCkstep` moves only `K`, `I` and `PHASE`. -/
theorem ckstepResult : Obligations.CkstepResult := by
  intro s hk hw
  refine ⟨_, (execCkstep_eq hk hw).trans (congrArg _ (nextCkstep_eq _)), rfl, ?_, fun j hj => ?_, ?_⟩
  · exact regRead_regWrite_same _ _ hk
  · exact regRead_regWrite_ne _ _ hj
  · simp only [moreBlocks_iff]

/-- A register file written to memory reads there register by register. -/
theorem Memory.read_writeBytes_regFile {m : Memory} (h : m.wf = true) (a : Nat) {n : Nat} (v : RegFile n) {j : Nat}
    (hj : j < n) : (m.writeBytes a v.toList).read (a + j) = regRead v j := by
  rw [Memory.read_writeBytes_inside h a v.toList (by simpa using hj), regRead_eq_getElem v hj, Vector.getElem_toList]

/-- Outside the registers' indices memory reads as before. -/
theorem Memory.read_writeBytes_regFile_outside (m : Memory) {a a' n : Nat} (v : RegFile n)
    (h : a' < a ∨ a + n ≤ a') : (m.writeBytes a v.toList).read a' = m.read a' :=
  Memory.read_writeBytes_outside m _ (by rwa [Vector.length_toList])

/-- Settles O22: what `W` reads after the sixteen registers of `C` are written at `LEN`. -/
theorem ckappResult : Obligations.CkappResult := fun s hwf hw =>
  ⟨_, execCkapp_eq hw, fun _ hj => Memory.read_writeBytes_regFile hwf s.len s.c hj,
    fun _ ha => Memory.read_writeBytes_regFile_outside s.w s.c ha, rfl⟩

/-- Settles O23: the registers of a file of zeros are 0. -/
theorem xinitResult : Obligations.XinitResult :=
  fun _ => ⟨_, rfl, fun k _ => regRead_regZero 48 k, rfl⟩

/-- Settles O27: `OUT` is built from the registers of `X`, and `STATUS` is computed from `PHASE`. -/
theorem extractResult : Obligations.ExtractResult :=
  fun _ => ⟨_, rfl, fun _ hj => regRead_regBuild _ hj, rfl, status_stateField _, rfl⟩

end Sys2Proof.Machine
end

section
/-! PROOF. Which instruction writes what (O28 to O30; 10_state.md, sections 2 to 7; 20_memory.md, section 1), and that
control does not depend on data (O31; 10_state.md R16). -/

namespace Sys2Proof.Machine

/-! ## Writers -/

/-- Settles O28: of what each instruction answers, every field it does not list is the old one. -/
theorem onlyTheListedWriters : Obligations.OnlyTheListedWriters := by
  intro i s t hs
  cases i with
  | digest n =>
    rw [execDigest_next hs]
    split_ifs
    · simp
    · obtain ⟨-, heq⟩ | ⟨-, heq⟩ := acceptDigest_cases n s <;> simp [heq]
  | copyb => obtain ⟨-, -, ⟨-, rfl⟩ | ⟨-, rfl⟩⟩ := execCopyb_next hs <;> simp
  | padb => obtain ⟨-, ⟨-, rfl⟩ | ⟨-, rfl⟩⟩ := execPadb_next hs <;> simp
  | ckinit => cases hs; simp
  | ckstep =>
    obtain ⟨-, -, rfl⟩ := execCkstep_next hs
    simp [nextCkstep_eq]
  | ckapp => obtain ⟨-, rfl⟩ := execCkapp_next hs; simp
  | xinit => cases hs; simp
  | ldblk => obtain ⟨-, rfl⟩ := execLdblk_next hs; simp
  | mix =>
    obtain ⟨-, rfl⟩ := execMix_next hs
    simp [nextMix_eq]
  | radj => obtain ⟨-, rfl⟩ | ⟨-, -, rfl⟩ | ⟨-, -, rfl⟩ := execRadj_next hs <;> simp
  | extract => cases hs; simp

/-- Settles O29: an instruction that changes `W` is one of the three, and none changes `IN` (`onlyTheListedWriters`). -/
theorem nonStoringFormsKeepEveryByte : Obligations.NonStoringFormsKeepEveryByte := by
  intro i s t hcopyb hpadb hckapp hs a
  obtain ⟨-, -, -, -, hwriters, -⟩ := onlyTheListedWriters i s t hs
  have hw : t.w = s.w := by
    by_contra hne
    obtain h | h | h := hwriters hne
    · exact hcopyb h
    · exact hpadb h
    · exact hckapp h
  rw [hw, exec_inp hs]
  exact ⟨rfl, rfl⟩

/-- Settles O30: `W` is the old one with one byte, or the registers of `C`, written at `LEN`. -/
theorem storingFormsKeepOtherBytes : Obligations.StoringFormsKeepOtherBytes := by
  intro s t hwf
  refine ⟨fun hs => ?_, fun hs => ?_, fun hs => ?_⟩
  · obtain ⟨-, -, ⟨-, rfl⟩ | ⟨-, rfl⟩⟩ := execCopyb_next hs <;>
      exact ⟨Memory.read_write_same hwf _ _, fun _ ha => Memory.read_write_ne _ _ ha, fun _ => rfl⟩
  · obtain ⟨-, ⟨-, rfl⟩ | ⟨-, rfl⟩⟩ := execPadb_next hs <;>
      exact ⟨Memory.read_write_same hwf _ _, fun _ ha => Memory.read_write_ne _ _ ha, fun _ => rfl⟩
  · obtain ⟨-, rfl⟩ := execCkapp_next hs
    exact ⟨fun _ hj => Memory.read_writeBytes_regFile hwf s.len s.c hj,
      fun _ ha => Memory.read_writeBytes_regFile_outside s.w s.c ha, fun _ => rfl⟩

/-! ## Control -/

/-- Answers with the same control: next states that agree on it, or the same fault. -/
inductive SameControlResult : Result → Result → Prop
  | next {s t : State} (h : SameControl s t) : SameControlResult (.next s) (.next t)
  | fault (f : Fault) : SameControlResult (.fault f) (.fault f)

theorem sameControl_wFits {s t : State} (h : SameControl s t) (n : Nat) : t.wFits n = s.wFits n := by
  obtain ⟨-, -, -, -, -, -, -, -, hcap⟩ := h
  rw [State.wFits, ← hcap, ← State.wFits]

/-- Whether a read of `IN` is inside it depends on the index and `NIN` only. -/
theorem readIN_sameControl {s t : State} (h : SameControl s t) (a : Nat) :
    (∃ f, readIN s a = .error f ∧ readIN t a = .error f) ∨
    ∃ b b', readIN s a = .ok b ∧ readIN t a = .ok b' := by
  obtain ⟨-, -, -, -, -, hnin, -⟩ := h
  unfold readIN
  rw [← hnin]
  split_ifs
  · exact .inr ⟨_, _, rfl, rfl⟩
  · exact .inl ⟨_, rfl, rfl⟩

/-- Whether a read of `W` is inside it depends on the indices and the capacity only. -/
theorem readW_sameControl {s t : State} (h : SameControl s t) (a n : Nat) :
    (∃ f, readW s a n = .error f ∧ readW t a n = .error f) ∨
    ∃ bs bs', readW s a n = .ok bs ∧ readW t a n = .ok bs' := by
  unfold readW
  rw [sameControl_wFits h]
  split_ifs
  · exact .inr ⟨_, _, rfl, rfl⟩
  · exact .inl ⟨_, rfl, rfl⟩

/-- So does whether a write of `W` is, whatever the bytes. -/
theorem writeW_sameControl {s t : State} (h : SameControl s t) (a : Nat) {bs bs' : List Byte}
    (hl : bs.length = bs'.length) :
    (∃ f, writeW s a bs = .error f ∧ writeW t a bs' = .error f) ∨
    ∃ w w', writeW s a bs = .ok { s with w := w } ∧ writeW t a bs' = .ok { t with w := w' } := by
  unfold writeW
  rw [sameControl_wFits h, ← hl]
  split_ifs
  · exact .inr ⟨_, _, rfl, rfl⟩
  · exact .inl ⟨_, rfl, rfl⟩

theorem sameControl_nextCkstep {s t : State} (h : SameControl s t) : SameControl (nextCkstep s) (nextCkstep t) := by
  obtain ⟨hph, hq, hi, hr, hk, hnin, hp, hlen, hcap⟩ := h
  simp only [nextCkstep_eq, SameControl, ← hph, ← hi, ← hk, ← hlen]
  exact ⟨trivial, hq, trivial, hr, trivial, hnin, hp, trivial, hcap⟩

theorem sameControl_nextMix {s t : State} (h : SameControl s t) : SameControl (nextMix s) (nextMix t) := by
  obtain ⟨hph, hq, hi, hr, hk, hnin, hp, hlen, hcap⟩ := h
  simp only [nextMix_eq, SameControl, ← hph, ← hk]
  exact ⟨trivial, hq, hi, hr, trivial, hnin, hp, hlen, hcap⟩

theorem sameControl_acceptDigest {s t : State} (h : SameControl s t) (n : Nat) :
    SameControl (acceptDigest n s) (acceptDigest n t) := by
  have hfit := sameControl_wFits h (bufferNeed n)
  obtain ⟨-, hq, hi, hr, hk, hnin, hp, hlen, hcap⟩ := h
  by_cases hw : s.wFits (bufferNeed n) = true
  · rw [acceptDigest_of_fits hw, acceptDigest_of_fits (hfit.trans hw)]
    exact ⟨rfl, rfl, hi, hr, hk, rfl, rfl, rfl, hcap⟩
  · rw [acceptDigest_of_not_fits hw, acceptDigest_of_not_fits (hfit ▸ hw)]
    exact ⟨rfl, hq, hi, hr, hk, hnin, hp, hlen, hcap⟩

theorem exec_sameControl (i : Instr) {s t : State} (h : SameControl s t) :
    SameControlResult (exec i s) (exec i t) := by
  obtain ⟨hph, hq, hi, hr, hk, hnin, hp, hlen, hcap⟩ := id h
  cases i with
  | digest n =>
    have hb : s.busy = t.busy := congrArg Phase.busy hph
    simp only [exec, execDigest, ← hb]
    split_ifs
    · exact .next h
    · exact .next (sameControl_acceptDigest h n)
  | copyb =>
    simp only [exec, execCopyb, ← hq, ← hlen, ← hnin]
    obtain ⟨f, hs, ht⟩ | ⟨b, b', hs, ht⟩ := readIN_sameControl h s.q <;> simp only [hs, ht]
    · exact .fault f
    obtain ⟨f, hs, ht⟩ | ⟨w, w', hs, ht⟩ := writeW_sameControl h s.len (bs := [b]) (bs' := [b']) rfl <;>
      simp only [hs, ht]
    · exact .fault f
    split_ifs
    · exact .next ⟨rfl, rfl, hi, hr, hk, hnin, hp, rfl, hcap⟩
    · exact .next ⟨hph, rfl, hi, hr, hk, hnin, hp, rfl, hcap⟩
  | padb =>
    simp only [exec, execPadb, ← hq, ← hlen, ← hp]
    obtain ⟨f, hs, ht⟩ | ⟨w, w', hs, ht⟩ :=
      writeW_sameControl h s.len (bs := [padByte s.p]) (bs' := [padByte s.p]) rfl <;> simp only [hs, ht]
    · exact .fault f
    split_ifs
    · exact .next ⟨rfl, rfl, hi, hr, hk, hnin, hp, rfl, hcap⟩
    · exact .next ⟨hph, rfl, hi, hr, hk, hnin, hp, rfl, hcap⟩
  | ckinit => exact .next ⟨rfl, hq, rfl, hr, rfl, hnin, hp, hlen, hcap⟩
  | ckstep =>
    simp only [exec, execCkstep, ← hi, ← hk]
    obtain ⟨f, hs, ht⟩ | ⟨bs, bs', hs, ht⟩ := readW_sameControl h (blockIndex s.i s.k) 1 <;> simp only [hs, ht]
    · exact .fault f
    split_ifs
    · exact .next (sameControl_nextCkstep ⟨hph, hq, rfl, hr, rfl, hnin, hp, hlen, hcap⟩)
    · exact .fault _
  | ckapp =>
    simp only [exec, execCkapp, ← hlen]
    obtain ⟨f, hs, ht⟩ | ⟨w, w', hs, ht⟩ :=
      writeW_sameControl h s.len (bs := s.c.toList) (bs' := t.c.toList) (by simp) <;> simp only [hs, ht]
    · exact .fault f
    · exact .next ⟨rfl, hq, hi, hr, hk, hnin, hp, rfl, hcap⟩
  | xinit => exact .next ⟨rfl, hq, rfl, hr, hk, hnin, hp, hlen, hcap⟩
  | ldblk =>
    simp only [exec, execLdblk, ← hi]
    obtain ⟨f, hs, ht⟩ | ⟨bs, bs', hs, ht⟩ := readW_sameControl h (blockIndex s.i 0) 16 <;> simp only [hs, ht]
    · exact .fault f
    · exact .next ⟨rfl, hq, rfl, rfl, rfl, hnin, hp, hlen, hcap⟩
  | mix =>
    simp only [exec, execMix, ← hk]
    split_ifs
    · exact .next (sameControl_nextMix ⟨hph, hq, hi, hr, rfl, hnin, hp, hlen, hcap⟩)
    · exact .fault _
  | radj =>
    simp only [exec, execRadj_eq]
    refine .next ⟨?_, hq, ?_, ?_, hk, hnin, hp, hlen, hcap⟩ <;> simp only [← hr, ← hi, ← hlen]
  | extract => exact .next ⟨rfl, hq, hi, hr, hk, hnin, hp, hlen, hcap⟩

/-- Settles O31: the shared operations test only control state, the latches and the capacity (`exec_sameControl`). -/
theorem controlIndependentOfData : Obligations.ControlIndependentOfData := by
  intro i s t h
  have hcontrol := exec_sameControl i h
  generalize exec i s = rs at hcontrol ⊢
  generalize exec i t = rt at hcontrol ⊢
  cases hcontrol with
  | next h' => exact h'
  | fault f => rfl

end Sys2Proof.Machine
end

section
/-! PROOF. The invariant (O32, O33; 10_state.md, sections 3, 4, 6 and 7) and what it says of the counters and of the
growth of `W` (O35, O36; 10_state.md R15, R22). -/

namespace Sys2Proof.Machine

/-- Settles O32: at reset the capacity is unbounded, both memories are empty and `PHASE` is `IDLE`. -/
theorem invariantAtReset : Obligations.InvariantAtReset :=
  ⟨nofun, ⟨rfl, rfl⟩, ⟨fun h => absurd rfl h, nofun⟩, trivial⟩

/-- Settles O33: `inv_step`, by the host's move or the engine's operation that the step is. -/
theorem everyStepKeepsTheInvariant : Obligations.EveryStepKeepsTheInvariant := fun _ _ => inv_step

/-- `W` holds at most the padded input and the checksum block. -/
theorem len_le_of_busy {s : State} (hp : s.phaseInv) (hb : s.busy = true) : s.len ≤ s.nin + s.p + 16 := by
  unfold State.phaseInv at hp
  unfold State.busy at hb
  cases hph : s.phase <;> simp only [hph] at hp hb
  case idle | done | fault => cases hb
  case copy | pad => obtain ⟨-, hlen, hq⟩ := hp; omega
  case cki | cka | xi | ext => obtain ⟨-, hlen⟩ := hp; omega
  case cks | ldb | mix | radj => obtain ⟨-, hlen, -⟩ := hp; omega

/-- Past the padder `W` holds whole blocks (10_state.md R22). -/
theorem len_mod_of_pastPadder {s : State} (hp : s.phaseInv) (hb : s.busy = true) (h : s.pastPadder) :
    s.len % 16 = 0 := by
  have hblocks := accepted_blocks (accepted_of_busy hp hb)
  obtain ⟨hcopy, hpad⟩ := h
  unfold State.phaseInv at hp
  unfold State.busy at hb
  cases hph : s.phase <;> simp only [hph] at hp hb
  case idle | done | fault => cases hb
  case copy => exact absurd hph hcopy
  case pad => exact absurd hph hpad
  case cki | cka | xi | ext => obtain ⟨-, hlen⟩ := hp; omega
  case cks | ldb | mix | radj => obtain ⟨-, hlen, -⟩ := hp; omega

/-- In the phases that read block `I` the whole block is in `W`. -/
theorem block_le_len {s : State} (hp : s.phaseInv)
    (hph : s.phase = .cks ∨ s.phase = .ldb ∨ s.phase = .mix ∨ s.phase = .radj) : 16 * (s.i + 1) ≤ s.len := by
  unfold State.phaseInv at hp
  obtain hph | hph | hph | hph := hph <;> rw [hph] at hp
  · obtain ⟨-, -, -, hi⟩ := hp; exact hi
  · obtain ⟨-, -, hi⟩ := hp; exact hi
  · obtain ⟨-, -, hi, -⟩ := hp; exact hi
  · obtain ⟨-, -, hi, -⟩ := hp; exact hi

/-- Settles O35: the latches of an accepted command bound `NIN` and `P`, these bound `LEN`, and `LEN` bounds `I`; the
ranges of `Q`, `R` and `K` are clauses of `State.phaseInv`. -/
theorem countersStayInRange : Obligations.CountersStayInRange := by
  intro s hinv hb
  obtain ⟨-, -, -, hphase⟩ := hinv
  obtain ⟨hnin, hp, -⟩ := accepted_of_busy hphase hb
  have hn : s.nin < 2 ^ 56 := hnin
  have hpos : 1 ≤ s.p := hp ▸ padCount_pos s.nin
  have hle : s.p ≤ 16 := hp ▸ padCount_le s.nin
  have hlen := len_le_of_busy hphase hb
  refine ⟨hn, hpos, hle, by omega, by omega, fun hph => ?_, fun hph => ?_,
    fun hcopy hpad => len_mod_of_pastPadder hphase hb ⟨hcopy, hpad⟩, fun hph => ?_, ?_, fun hph => ?_, fun hph => ?_⟩
  · rw [State.phaseInv, hph] at hphase
    obtain ⟨-, -, hq⟩ := hphase
    exact hq.le
  · rw [State.phaseInv, hph] at hphase
    obtain ⟨-, -, hq⟩ := hphase
    exact hq.le
  · have := block_le_len hphase hph
    omega
  · rintro (hph | hph) <;> rw [State.phaseInv, hph] at hphase <;> obtain ⟨-, -, -, hr, -⟩ := hphase <;> omega
  · rw [State.phaseInv, hph] at hphase
    obtain ⟨-, -, hk, -⟩ := hphase
    omega
  · rw [State.phaseInv, hph] at hphase
    obtain ⟨-, -, -, -, hk⟩ := hphase
    omega

/-- An engine step writes `W` from `LEN` on, and `LEN` is then beyond what it wrote. -/
theorem advance_appends (s : State) :
    s.len ≤ s.advance.len ∧ ∀ a, a < s.len ∨ s.advance.len ≤ a → s.advance.w.read a = s.w.read a := by
  unfold State.advance
  cases s.phase
  case copy | pad => exact ⟨Nat.le_succ _, fun a ha => Memory.read_write_ne _ _ (by simp only at ha; omega)⟩
  case cka => exact ⟨Nat.le_add_right _ _, fun a ha => Memory.read_writeBytes_regFile_outside _ _ ha⟩
  all_goals exact ⟨le_rfl, fun _ _ => rfl⟩

/-- Settles O36: in a state of the invariant the engine's step is `State.advance`, which appends to `W`. -/
theorem workingBufferGrowsOnlyAtItsEnd : Obligations.WorkingBufferGrowsOnlyAtItsEnd := by
  intro s t hinv _ hh hs
  cases ((step_of_host_nil hh).trans (engineStep_eq_advance hinv)).symm.trans hs
  exact advance_appends s

end Sys2Proof.Machine
end

section
/-! PROOF. The host's side (O17, O40 to O42; 10_state.md R21, R27, 20_memory.md R29, R36): the state it finds after
reset, its reads and writes of single offsets, and the one move that writes `IN`. -/

namespace Sys2Proof.Machine

/-- Settles O17: the fields of `State.reset`; `STATUS` is that of an idle engine. -/
theorem stateAfterReset : Obligations.StateAfterReset :=
  ⟨rfl, rfl, status_of_idle rfl rfl, rfl, rfl⟩

/-! ## Single offsets -/

/-- A read transaction of one byte is the read of that byte. -/
theorem step_read_byte {s t : State} {off : Nat} {rest : List HostMove} {b : Byte} (hh : s.host = .read off 1 :: rest)
    (hr : hostReadByte { s with host := rest } off = .ok (b, t)) : step s = .next { t with rdata := [b] } :=
  step_read hh (by simp only [hostRead, hr])

theorem hostReadByte_invalid_out {s : State} (h : s.phase ≠ .done) {j : Nat} (hj : j < 16) :
    hostReadByte s (0x10 + j) = .ok (drawByte s) := by
  have hvalid : ¬ s.outValid = true := by simpa [State.outValid] using h
  rw [hostReadByte, if_neg (by omega), if_neg (by omega), if_neg (by omega), if_pos (by omega), if_neg hvalid]

theorem hostReadByte_reserved (s : State) {off : Nat} (h : 9 ≤ off) (h' : off < 16) :
    hostReadByte s off = .ok (0x00#8, s) := by
  rw [hostReadByte, if_neg (by omega), if_neg (by omega), if_pos h']

theorem hostReadByte_outside (s : State) {off : Nat} (h : 32 ≤ off) :
    hostReadByte s off = .error (.notAnEngineOffset off) := by
  rw [hostReadByte, if_neg (by omega), if_neg (by omega), if_neg (by omega), if_neg (by omega)]

/-- Settles O40: outside `DONE` the byte read is drawn. -/
theorem invalidOutputReadsAFreeByte : Obligations.InvalidOutputReadsAFreeByte :=
  fun s _ rest hd hj hh => step_read_byte hh (hostReadByte_invalid_out (s := { s with host := rest }) hd hj)

/-- Settles O41: the ranges of offsets that a read and a write of one byte distinguish. -/
theorem offsetsOfTheRegisterMap : Obligations.OffsetsOfTheRegisterMap := by
  intro s off b rest
  refine ⟨fun h h' hh => step_read_byte hh (hostReadByte_reserved _ h h'), fun h h' hh => ?_, fun h hh => ?_,
    fun h hh => ?_, fun h hh => ?_⟩ <;> rw [step_of_host_cons hh, hostStep]
  · rw [hostWriteByte, if_neg (by omega), if_pos h']
  · rw [hostWriteByte, if_pos h]
  · rw [hostWriteByte, if_neg (by omega), if_neg (by omega)]
  · simp only [hostReadMove, hostRead, hostReadByte_outside _ h]

/-! ## `IN` -/

theorem engineStep_inp {s t : State} (hs : engineStep s = .next t) : t.inp = s.inp := by
  unfold engineStep at hs
  split at hs
  · exact exec_inp hs
  · cases hs
    rfl

/-- Of the host's moves only `present` writes `IN`, and only where the engine is not `BUSY`. -/
theorem hostStep_inp {s t : State} {m : HostMove} (hs : hostStep m s = .next t) :
    t.inp = s.inp ∨ (s.busy = false ∧ ∃ bytes, m = .present bytes) := by
  cases m with
  | wait => exact .inl (engineStep_inp hs)
  | reset o =>
    cases hs
    exact .inl rfl
  | writeCmd w =>
    simp only [hostStep, hostWriteCmd] at hs
    split at hs
    · exact .inl (exec_inp hs)
    · cases hs
      split_ifs <;> exact .inl rfl
  | writeByte off b =>
    simp only [hostStep, hostWriteByte] at hs
    split_ifs at hs
    cases hs
    exact .inl rfl
  | read off n =>
    obtain ⟨rd, d, rfl⟩ := hostReadMove_next hs
    exact .inl rfl
  | present bytes =>
    simp only [hostStep, hostPresent] at hs
    split_ifs at hs with hb
    exact .inr ⟨Bool.eq_false_iff.mpr hb, bytes, rfl⟩

theorem step_inp {s t : State} (hs : step s = .next t) :
    t.inp = s.inp ∨ (s.busy = false ∧ ∃ bytes rest, s.host = .present bytes :: rest) := by
  cases hh : s.host with
  | nil => exact .inl (engineStep_inp ((step_of_host_nil hh).symm.trans hs))
  | cons m rest =>
    rw [step_of_host_cons hh] at hs
    obtain hsame | ⟨hb, bytes, rfl⟩ := hostStep_inp hs
    · exact .inl hsame
    · exact .inr ⟨hb, bytes, rest, rfl⟩

/-- What is presented is what `IN` reads as. -/
theorem Memory.read_ofBytes_of_getElem? {bs : List Byte} {j : Nat} {b : Byte} (h : bs[j]? = some b) :
    (Memory.ofBytes bs).read j = b := by
  rw [Memory.read_ofBytes, List.getD_eq_getElem?_getD, h, Option.getD_some]

/-- Settles O42: only `present` writes `IN` (`step_inp`), and it puts the bytes in place or is refused. -/
theorem onlyTheHostWritesInput : Obligations.OnlyTheHostWritesInput := by
  refine ⟨fun s t hs hne => (step_inp hs).resolve_left hne, fun s bytes rest hh => ⟨fun hb => ?_, fun hb => ?_⟩⟩
  · rw [step_of_host_cons hh, hostStep, hostPresent]
    exact if_pos hb
  · refine ⟨{ s with host := rest, inp := Memory.ofBytes bytes }, ?_, rfl,
      fun _ _ => Memory.read_ofBytes_of_getElem?⟩
    rw [step_of_host_cons hh, hostStep, hostPresent]
    exact if_neg (Bool.eq_false_iff.mp hb)

end Sys2Proof.Machine
end

section
/-! PROOF. The table (O6; 40_sbox.md R55, R58), the link between blocks (O46; 43_compressor.md R72) and the digits of a
digest (O48; 44_digest_command.md R87). -/

namespace Sys2Proof.Machine

/-! ## The table is a bijection -/

/-- No byte stands in the table twice, read off its 256 entries. -/
theorem nodup_sRows_flatten : sRows.flatten.Nodup := by decide +kernel

theorem sub_injective : Function.Injective sub := by
  intro a b hab
  have hentry : sRows.flatten[a.toNat]? = sRows.flatten[b.toNat]? := by
    rw [sRows_flatten_getElem?, sRows_flatten_getElem?, hab]
  have hlt : a.toNat < sRows.flatten.length := a.isLt.trans_eq length_sRows_flatten.symm
  exact BitVec.eq_of_toNat_eq ((List.getElem?_inj hlt nodup_sRows_flatten).mp hentry)

/-- Settles O6: a table of 256 different bytes is injective, and so bijective on the 256 bytes; the iterates are read
off it. -/
theorem sboxIsBijection : Obligations.SboxIsBijection :=
  ⟨Finite.injective_iff_bijective.mp sub_injective, by decide⟩

/-! ## Blocks of the compressor -/

/-- Settles O46: a block loads the bytes of the block into an `X` of which only `X[0..15]` is read (`compBlock_eq`,
`loadBlock_congr`). -/
theorem onlySixteenBytesLinkBlocks : Obligations.OnlySixteenBytesLinkBlocks := by
  intro b b' x x' i hx hb
  have hblock : blockBytes b i = blockBytes b' i := List.map_congr_left fun j hj => hb j (List.mem_range.mp hj)
  rw [compBlock_eq, compBlock_eq, hblock, loadBlock_congr _ hx]

/-! ## Digits -/

theorem hexDigit_eq {n : Nat} (h : n < 16) : "0123456789abcdef".toList[n]? = some (hexDigit n) := by
  have hlen : n < "0123456789abcdef".toList.length := h
  rw [hexDigit, List.getD_eq_getElem _ _ hlen, List.getElem?_eq_getElem hlen]

/-- A list of pairs laid end to end has the pairs' first parts at the even places and their second at the odd ones. -/
theorem getElem?_flatMap_pair {α β : Type} (f g : α → β) (l : List α) (j : Nat) :
    (l.flatMap fun a => [f a, g a])[2 * j]? = l[j]?.map f ∧
      (l.flatMap fun a => [f a, g a])[2 * j + 1]? = l[j]?.map g := by
  induction l generalizing j with
  | nil => exact ⟨rfl, rfl⟩
  | cons a l ih =>
    cases j with
    | zero => exact ⟨rfl, rfl⟩
    | succ j => exact ih j

theorem getElem?_regFile {n : Nat} (v : RegFile n) {j : Nat} (hj : j < n) : v.toList[j]? = some (regRead v j) := by
  rw [regRead_eq_getElem v hj, List.getElem?_eq_getElem (by simpa using hj), Vector.getElem_toList]

theorem high_nibble_lt (b : Byte) : b.toNat / 16 < 16 := Nat.div_lt_of_lt_mul b.isLt

theorem low_nibble_lt (b : Byte) : b.toNat % 16 < 16 := Nat.mod_lt _ (by decide)

/-- Settles O48: a byte's two digits stand at its double place, high nibble first; a nibble has a digit. -/
theorem hexRendering : Obligations.HexRendering := by
  intro d
  refine ⟨by simp [hex, List.length_flatMap], fun ch hch => ?_, fun j hj => ?_⟩
  · obtain ⟨b, -, hch⟩ := List.mem_flatMap.mp hch
    rw [List.mem_pair] at hch
    obtain rfl | rfl := hch
    · exact List.mem_of_getElem? (hexDigit_eq (high_nibble_lt b))
    · exact List.mem_of_getElem? (hexDigit_eq (low_nibble_lt b))
  · obtain ⟨hhigh, hlow⟩ := getElem?_flatMap_pair (fun b : Byte => hexDigit (b.toNat / 16))
      (fun b => hexDigit (b.toNat % 16)) d.toList j
    rw [getElem?_regFile d hj] at hhigh hlow
    exact ⟨hhigh.trans (hexDigit_eq (high_nibble_lt _)).symm, hlow.trans (hexDigit_eq (low_nibble_lt _)).symm⟩

end Sys2Proof.Machine
end

section
/-! PROOF. The stages of an invocation from any state of the invariant (O49, O50; 42_checksum.md, 43_compressor.md): the
engine runs `cksum_run` and `compress_run` as runs of the machine. -/

namespace Sys2Proof.Machine

theorem traceCksum_length (nb : Nat) : (traceCksum nb).length = 16 * nb + 2 := by
  simp [traceCksum, List.length_flatMap, Nat.mul_comm]

theorem traceBlock_length (i : Nat) : (traceBlock i).length = 883 := by
  simp [traceBlock, traceRound, List.length_flatMap]

theorem traceCompress_length (nb : Nat) : (traceCompress nb).length = 883 * (nb + 1) + 2 := by
  simp [traceCompress, traceBlock_length, List.length_flatMap, Nat.mul_comm]

theorem Memory.readBytes_add (m : Memory) (a n k : Nat) :
    m.readBytes a (n + k) = m.readBytes a n ++ m.readBytes (a + n) k := by
  simp [Memory.readBytes, List.range_add, Nat.add_assoc, Function.comp_def]

/-- Bytes written at the end of a buffer are appended to it. -/
theorem Memory.readBytes_writeBytes_end {m : Memory} (h : m.wf = true) (n : Nat) (bs : List Byte) :
    (m.writeBytes n bs).readBytes 0 (n + bs.length) = m.readBytes 0 n ++ bs := by
  have hold : (m.writeBytes n bs).readBytes 0 n = m.readBytes 0 n := List.map_congr_left fun j hj =>
    Memory.read_writeBytes_outside m bs (.inl (by simpa using hj))
  rw [Memory.readBytes_add, hold, Nat.zero_add, Memory.readBytes_writeBytes h]

/-- Settles O49: the operations of the stage are `LEN + 2`, and they write `Ck` of the buffer at its end. -/
theorem checksumStageComputesCk : Obligations.ChecksumStageComputesCk := by
  intro s hinv hh hph
  obtain ⟨-, ⟨hwf, -⟩, -, hp⟩ := hinv
  rw [State.phaseInv, hph] at hp
  obtain ⟨ha, hlen⟩ := hp
  have hblocks : s.len = 16 * (s.nin / 16 + 1) := hlen.trans (accepted_blocks ha)
  obtain ⟨hrun, -⟩ := (cksum_run hph hblocks (accepted_fits ha (by omega))).run_trace hh
  rw [traceCksum_length, ← hblocks] at hrun
  have happend := Memory.readBytes_writeBytes_end hwf s.len (checksum s.buffer).toList
  rw [Vector.length_toList] at happend
  exact ⟨_, hrun, rfl, rfl, happend⟩

/-- Settles O50: the operations of the stage are 883 for each block and two, and they leave `Comp` of the buffer in
`OUT`. -/
theorem compressorStageComputesComp : Obligations.CompressorStageComputesComp := by
  intro s hinv hh hph
  obtain ⟨-, -, -, hp⟩ := hinv
  rw [State.phaseInv, hph] at hp
  obtain ⟨ha, hlen⟩ := hp
  have hblocks : s.len = 16 * (s.nin / 16 + 1 + 1) := hlen.trans (congrArg (· + 16) (accepted_blocks ha))
  obtain ⟨_, hcomp⟩ := compress_run hph hblocks (accepted_fits ha hlen.le)
  obtain ⟨hrun, -⟩ := hcomp.run_trace hh
  have hcount : s.len / 16 = s.nin / 16 + 1 + 1 := by omega
  rw [traceCompress_length, ← hcount] at hrun
  exact ⟨_, hrun, rfl, rfl, rfl⟩

end Sys2Proof.Machine
end

section
/-! PROOF. Engines are independent (O57; 60_exceptions.md R101): a step of the system replaces one engine of the list by
what its own step answers. -/

namespace Sys2Proof.Machine

theorem stepAt_of_none {sys : System} {e : Nat} (h : sys[e]? = none) : System.stepAt e sys = .next sys := by
  rw [System.stepAt, h]

theorem stepAt_of_some {sys : System} {e : Nat} {s t : State} (h : sys[e]? = some s) (hs : step s = .next t) :
    System.stepAt e sys = .next (sys.set e t) := by
  simp only [System.stepAt, h, hs]

/-- A step of engine `e` that answers: no such engine, or the engine's own step. -/
theorem stepAt_next {sys sys' : System} {e : Nat} (h : System.stepAt e sys = .next sys') :
    (sys[e]? = none ∧ sys' = sys) ∨ ∃ s t, sys[e]? = some s ∧ step s = .next t ∧ sys' = sys.set e t := by
  unfold System.stepAt at h
  split at h
  · cases h
    exact .inl ⟨‹_›, rfl⟩
  · rename_i s hs
    split at h <;> cases h
    exact .inr ⟨s, _, hs, ‹_›, rfl⟩

theorem stepAt_own {sys sys' : System} {e : Nat} (h : System.stepAt e sys = .next sys') :
    sys'.length = sys.length ∧ (∀ e', e' ≠ e → sys'[e']? = sys[e']?) ∧
      ∀ s, sys[e]? = some s → ∃ t, step s = .next t ∧ sys'[e]? = some t := by
  obtain ⟨hnone, rfl⟩ | ⟨s, t, hsome, hs, rfl⟩ := stepAt_next h
  · exact ⟨rfl, fun _ _ => rfl, fun s hsome => by cases hnone.symm.trans hsome⟩
  · refine ⟨List.length_set, fun e' hne => List.getElem?_set_ne hne.symm, fun s' hsome' => ?_⟩
    cases hsome.symm.trans hsome'
    obtain ⟨hlt, -⟩ := List.getElem?_eq_some_iff.mp hsome
    exact ⟨t, hs, List.getElem?_set_self hlt⟩

/-- Steps of two engines in one order can be taken in the other: each finds its engine as it was. -/
theorem stepAt_comm {sys sys₁ sys₂ : System} {e e' : Nat} (hne : e ≠ e') (h₁ : System.stepAt e sys = .next sys₁)
    (h₂ : System.stepAt e' sys₁ = .next sys₂) :
    ∃ sys₃, System.stepAt e' sys = .next sys₃ ∧ System.stepAt e sys₃ = .next sys₂ := by
  obtain ⟨-, hother, -⟩ := stepAt_own h₁
  have he' : sys₁[e']? = sys[e']? := hother e' hne.symm
  obtain ⟨hnone', rfl⟩ | ⟨s', t', hsome', hs', rfl⟩ := stepAt_next h₂
  · exact ⟨sys, stepAt_of_none (he' ▸ hnone'), h₁⟩
  · refine ⟨sys.set e' t', stepAt_of_some (he' ▸ hsome') hs', ?_⟩
    have he : (sys.set e' t')[e]? = sys[e]? := List.getElem?_set_ne hne.symm
    obtain ⟨hnone, rfl⟩ | ⟨s, t, hsome, hs, rfl⟩ := stepAt_next h₁
    · exact stepAt_of_none (he.trans hnone)
    · rw [stepAt_of_some (he.trans hsome) hs, List.set_comm _ _ hne.symm]

/-- Settles O57: `stepAt_own`, `stepAt_comm`, and every engine of a reset system is `State.reset`. -/
theorem enginesAreIndependent : Obligations.EnginesAreIndependent :=
  ⟨fun _ _ _ => stepAt_own, fun _ _ _ _ _ => stepAt_comm,
    fun _ _ hs => congrArg State.phase (List.eq_of_mem_replicate hs)⟩

end Sys2Proof.Machine
end

section
/-! PROOF. The known-answer vectors (O47; 95_test_vectors.md V1 to V4): `Comp` over lists of bytes, in a form that the
kernel evaluates one byte after the other, and that it is `Comp`. -/

namespace Sys2Proof.Machine

/-! ## Rounds over a list -/

/-- `f b`. Matching on the number that `b` is makes the kernel evaluate `b` before `f`, and not at each use in `f`. -/
def withByte {α : Type} (b : Byte) (f : Byte → α) : α :=
  match b.toNat with
  | 0 => f 0x00#8
  | n + 1 => f (BitVec.ofNat 8 (n + 1))

theorem withByte_eq {α : Type} (b : Byte) (f : Byte → α) : withByte b f = f b := by
  have hb : BitVec.ofNat 8 b.toNat = b := by rw [BitVec.ofNat_toNat, BitVec.setWidth_eq]
  unfold withByte
  split <;> rename_i h <;> rw [← hb, h]

/-- The positions of a round over the bytes still to mix, from the byte `T`: `next` gets all bytes mixed and the last
`T`. The bytes mixed so far are held in reverse. -/
def mixEval {α : Type} (next : List Byte → Byte → α) : Byte → List Byte → List Byte → α
  | t, [], mixed => next mixed.reverse t
  | t, b :: todo, mixed => withByte (b ^^^ sub t) fun v => mixEval next v todo (v :: mixed)

/-- These are the positions of `Comp` (43_compressor.md R70) from the first byte still to mix on. -/
theorem mixEval_eq {α : Type} (next : List Byte → Byte → α) (t : Byte) (todo : List Byte) {mixed : List Byte}
    {x : RegFile 48} (hx : x.toList = mixed.reverse ++ todo) :
    mixEval next t todo mixed =
      let acc := (List.range' mixed.length todo.length).foldl mixPosition (x, t)
      next acc.1.toList acc.2 := by
  induction todo generalizing mixed x t with
  | nil => simp [mixEval, hx]
  | cons b todo ih =>
    have hb : regRead x mixed.length = b := by simp [regRead, hx]
    rw [mixEval, withByte_eq, ih (x := regWrite x mixed.length (b ^^^ sub t))]
    · simp [List.range'_succ, mixPosition, hb]
    · simp [regWrite, Vector.toList_setIfInBounds, hx]

/-- The rounds `rs` over the bytes of `X`, from the byte `T`. -/
def roundsEval : List Nat → List Byte → Byte → List Byte
  | [], xs, _ => xs
  | r :: rs, xs, t => mixEval (fun ys t' => roundsEval rs ys (t' + BitVec.ofNat 8 r)) t xs []

theorem roundsEval_eq (rs : List Nat) (x : RegFile 48) (t : Byte) :
    roundsEval rs x.toList t = (rs.foldl mixRound (x, t)).1.toList := by
  induction rs generalizing x t with
  | nil => rfl
  | cons r rs ih =>
    rw [roundsEval, mixEval_eq _ t _ (x := x) rfl]
    simp only [ih, List.length_nil, Vector.length_toList, ← List.range_eq_range', List.foldl_cons, mixRound]

/-! ## Blocks and digests -/

/-- Block `i` of `b`, loaded beside the first sixteen bytes of `X`. -/
def loadEval (b xs : List Byte) (i : Nat) : List Byte :=
  (List.range 48).map fun k =>
    if k < 16 then xs.getD k 0x00#8
    else if k < 32 then b.getD (blockIndex i (k - 16)) 0x00#8
    else xs.getD (k - 32) 0x00#8 ^^^ b.getD (blockIndex i (k - 32)) 0x00#8

/-- The bytes of `X` after block `i` of `b`. -/
def blockEval (b xs : List Byte) (i : Nat) : List Byte := roundsEval (List.range 18) (loadEval b xs i) 0x00#8

theorem blockEval_eq (b : List Byte) (x : RegFile 48) (i : Nat) :
    blockEval b x.toList i = (compBlock b x i).toList := by
  rw [compBlock, ← roundsEval_eq]
  rfl

theorem foldl_blockEval (b : List Byte) (blocks : List Nat) (x : RegFile 48) :
    blocks.foldl (blockEval b) x.toList = (blocks.foldl (compBlock b) x).toList := by
  induction blocks generalizing x with
  | nil => rfl
  | cons i blocks ih => rw [List.foldl_cons, List.foldl_cons, blockEval_eq, ih]

/-- The bytes of `Digest(m)`. -/
def digestEval (m : List Byte) : List Byte :=
  let b := padded m ++ (checksum (padded m)).toList
  let xs := (List.range (b.length / 16)).foldl (blockEval b) (regZero 48).toList
  (List.range 16).map fun k => xs.getD k 0x00#8

theorem digestEval_eq (m : List Byte) : digestEval m = (digest m).toList := by
  rw [digestEval, foldl_blockEval]
  rfl

theorem digest_eq_of_digestEval {m : List Byte} {d : RegFile 16} (h : digestEval m = d.toList) : digest m = d :=
  Vector.toList_inj.mp ((digestEval_eq m).symm.trans h)

/-- Settles O47: the bytes of each digest, evaluated. -/
theorem knownAnswerVectors : Obligations.KnownAnswerVectors := by
  refine ⟨?_, ?_, ?_, ?_⟩ <;> exact digest_eq_of_digestEval (by decide +kernel)

end Sys2Proof.Machine
end
